-- ==== Sys2Proof/Word.lean ====
section
/-! DEFINITION. The bit vectors of the block: a byte, a 32-bit register value, a code point and a
command word. -/

namespace Sys2Proof

/-- A byte, `bits(8)` (00_scope.md R9). -/
abbrev Byte := BitVec 8

/-- What the register read port and the buffer address carry, `bits(32)` (20_memory.md R19, R21). -/
abbrev Word := BitVec 32

/-- A code-point operand, `bits(CPW)` with the spec's `CPW = 32` (00_scope.md R4, R8). -/
abbrev CodePoint := BitVec 32

/-- A command word `CW : bits(CPW + 2)` (30_encoding.md R28). -/
abbrev CmdWord := BitVec 34

/-- What `x_chars` carries: seven bytes (40_expander.md R38). -/
abbrev PackedBlock := BitVec 56

end Sys2Proof
end

