-- ==== Sys2Proof/Syntax.lean ====
section
/-! DEFINITION. The commands of the line engine (30_encoding.md R29) and the assembler's statements
(30_encoding.md R33, R34). -/

namespace Sys2Proof

/-- The opcode field's four values (30_encoding.md R29). -/
inductive Opcode where
  | clr | push | endLine | rsv
  deriving DecidableEq, Repr

/-- A command, one constructor per row of the opcode table (30_encoding.md R29). Every command word
has a `cp` field (R28), so every constructor keeps it, ignored or not (R30; log entry 19). -/
inductive Instr where
  /-- CLR, `op = 0b00`: open a new line. -/
  | clr (cp : CodePoint)
  /-- PUSH, `op = 0b01`: encode one character of the open line. -/
  | push (cp : CodePoint)
  /-- END, `op = 0b10`: close the line. -/
  | endLine (cp : CodePoint)
  /-- RSV, `op = 0b11`: the reserved opcode. -/
  | rsv (cp : CodePoint)
  deriving DecidableEq, Repr

/-- The opcode of a command. -/
def Instr.opcode : Instr → Opcode
  | .clr _ => .clr
  | .push _ => .push
  | .endLine _ => .endLine
  | .rsv _ => .rsv

/-- The `cp` field of a command. -/
def Instr.cp : Instr → CodePoint
  | .clr cp => cp
  | .push cp => cp
  | .endLine cp => cp
  | .rsv cp => cp

/-- The three forms of the assembler's `<cp>` (30_encoding.md R33). -/
inductive AsmOperand where
  | decimal (v : Int)
  | hex (n : Nat)
  | char (c : Char)
  deriving DecidableEq, Repr

/-- One statement of the assembler (30_encoding.md R33), the pseudo-command LINE among them (R34). -/
inductive AsmStmt where
  | clr
  | push (v : AsmOperand)
  | endLine
  /-- `RSV` with no operand means `RSV 0`. -/
  | rsv (v : Option AsmOperand)
  /-- `LINE "<string>"`, the string's escapes already read. -/
  | lineString (cs : List Char)
  /-- `LINE [v_0, v_1, ...]`. -/
  | lineList (vs : List AsmOperand)
  deriving DecidableEq, Repr

end Sys2Proof
end

