-- ==== Sys2Proof/Decode.lean ====
section
/-! DEFINITION. Decoding of command words (30_encoding.md R28 to R32) and, after it, the encoder,
written from the same tables. -/

namespace Sys2Proof

/-- `CW[CPW+1:CPW]`, the opcode field (30_encoding.md R28). -/
def opField (w : CmdWord) : BitVec 2 := w.extractLsb' 32 2

/-- `CW[CPW-1:0]`, the operand field, neither extended nor scaled (30_encoding.md R28, R30). -/
def cpField (w : CmdWord) : CodePoint := w.extractLsb' 0 32

/-- The command an opcode selects (30_encoding.md R29). -/
def opcodeOf (b : BitVec 2) : Opcode :=
  match b.toFin with
  | 0 => .clr
  | 1 => .push
  | 2 => .endLine
  | 3 => .rsv

/-- The command with the given opcode and `cp` field. -/
def Instr.ofFields (o : Opcode) (cp : CodePoint) : Instr :=
  match o with
  | .clr => .clr cp
  | .push => .push cp
  | .endLine => .endLine cp
  | .rsv => .rsv cp

/-- Decoding is total: it reads only `op`, and every word is one of the four commands
(30_encoding.md R31, R32). -/
def decode (w : CmdWord) : Instr := .ofFields (opcodeOf (opField w)) (cpField w)

/-- Why a number is no command word. -/
inductive DecodeRefusal where
  /-- The number needs more than the 34 bits of a command word (30_encoding.md R28). Safe: the command
  port has no wire for such a bit. -/
  | beyondCommandWord
  deriving DecidableEq, Repr

/-- Decoding of a number whose bit 0 is bit 0 of the command word. -/
def decodeBits (w : Nat) : Except DecodeRefusal Instr :=
  if w < 2 ^ 34 then .ok (decode (BitVec.ofNat 34 w)) else .error .beyondCommandWord

/-- The command the decoder reads from the number `w`, of which only the low `nbits` bits count:
bits the command word has above `nbits` are zero (log entry 16). -/
def decodeTableWord (nbits w : Nat) : Option Instr :=
  match decodeBits (w % 2 ^ nbits) with
  | .ok i => some i
  | .error _ => none

/-! ## The encoder -/

/-- The opcode field's value of a command (30_encoding.md R29). -/
def opcodeBits : Opcode → BitVec 2
  | .clr => 0b00#2
  | .push => 0b01#2
  | .endLine => 0b10#2
  | .rsv => 0b11#2

/-- `CW = (cmd_op, cmd_cp)`, the opcode in the more significant bits (30_encoding.md R28). -/
def encode (i : Instr) : CmdWord := opcodeBits i.opcode ++ i.cp

/-- The mask that every row of the opcode table shares (30_encoding.md R29). -/
def rowMask : CmdWord := 0x300000000#34

/-- The match value of an opcode's row in the opcode table (30_encoding.md R29). -/
def rowMatch : Opcode → CmdWord
  | .clr => 0x000000000#34
  | .push => 0x100000000#34
  | .endLine => 0x200000000#34
  | .rsv => 0x300000000#34

end Sys2Proof
end

