-- ==== Sys2Proof/Config.lean ====
section
/-! DEFINITION. What a build of the block fixes (00_scope.md R4) and the values the spec leaves open:
the free contents of unwritten buffer cells and the host's capacity policy. -/

namespace Sys2Proof

namespace Config

/-- `CPW`, the width of a code point operand: 32 is the spec's value (00_scope.md R4, D3). -/
def CPW : Nat := 32

/-- The byte emitted for bit value 1 (00_scope.md R4). -/
def SP : Byte := 0x20#8

/-- The byte emitted for bit value 0 (00_scope.md R4). -/
def TAB : Byte := 0x09#8

/-- The largest capacity, `floor((2^32 - 1) / 7)` (00_scope.md R4). -/
def maxcLimit : Nat := 613566756

end Config

/-- The open build-time parameter of one block (00_scope.md R4, 93_implementation_defined.md U3).
It is configuration and not state (10_state.md R11); log entry 1 says why a machine state carries it. -/
structure Params where
  /-- `MAXC`, the largest number of characters one line may hold. -/
  maxc : Nat
  deriving DecidableEq, Repr

/-- `OBYTES = 7 * MAXC`, the size of the output buffer in bytes (00_scope.md R4). -/
def Params.obytes (p : Params) : Nat := 7 * p.maxc

/-- What the host's entry point leaves behind (60_exceptions.md R53): the bytes written to standard
output, the text written to standard error, and the exit status. -/
structure HostResult where
  stdout : List Byte
  stderr : List Char
  exitStatus : Nat
  deriving DecidableEq, Repr, Inhabited

/-- A free value: the byte an unwritten buffer cell holds, by the draw in force and the cell's index
(10_state.md R17, R18; 93_implementation_defined.md U1; log entry 6). -/
opaque Config.freeCell : Nat → Nat → Byte

/-- A free value: the open parameter `HOST_CAPACITY_POLICY`, what a host does with an argument whose
line ends in CAPACITY (60_exceptions.md R53, 92_eei_decisions.md D23; log entry 15). -/
opaque Config.hostCapacityPolicy : List Char → HostResult

end Sys2Proof
end

