-- ==== Sys2Proof/Machine/Expand.lean ====
section
/-! DEFINITION. EXPAND, the 7-bit-to-7-character expander (40_expander.md R35 to R38). -/

namespace Sys2Proof.Machine

/-- `valid(cp)`: all bits above bit 6 are zero (40_expander.md R35). -/
def valid (cp : CodePoint) : Bool := cp.extractLsb' 7 25 == 0#25

/-- `mask(j) = 0x40 >> j` (40_expander.md R36). -/
def mask (j : Nat) : CodePoint := 0x40#32 >>> j

/-- Lane `j` carries bit `6 - j`: SP for 1, TAB for 0 (40_expander.md R36). -/
def lane (cp : CodePoint) (j : Nat) : Byte :=
  if cp &&& mask j = 0#32 then Config.TAB else Config.SP

/-- The block of a code point: lanes 0 to 6 (40_expander.md R37). -/
def lanes (cp : CodePoint) : List Byte :=
  [lane cp 0, lane cp 1, lane cp 2, lane cp 3, lane cp 4, lane cp 5, lane cp 6]

/-- EXPAND: `ok = 1` with a block where the code point is valid, `ok = 0` with none otherwise
(40_expander.md R37). -/
def expand (cp : CodePoint) : Option (List Byte) := if valid cp then some (lanes cp) else none

/-- The signal `x_ok` (40_expander.md R38). -/
def xOk (cp : CodePoint) : Bool := (expand cp).isSome

/-- The signal `x_chars`: lane `j` in bits `[8j+7:8j]`, all zeros where the code point is invalid
(40_expander.md R38). -/
def xChars (cp : CodePoint) : PackedBlock :=
  match expand cp with
  | none => 0#56
  | some _ =>
    lane cp 6 ++ lane cp 5 ++ lane cp 4 ++ lane cp 3 ++ lane cp 2 ++ lane cp 1 ++ lane cp 0

end Sys2Proof.Machine
end

