-- ==== Sys2Proof/Machine/Params.lean ====
section
/-! DEFINITION. The parameter values of the block that State.reset stands for. -/

namespace Sys2Proof.Machine

/-- The line capacity of the block that `State.reset` describes. DESIGN CHOICE (log entry 1): the spec
leaves `MAXC` open (00_scope.md R4); 4 is what its line vectors use (95_test_vectors.md). Statements hold
for every `MAXC`: they are about every state, and each state carries its own. -/
def resetParams : Params := ⟨4⟩

end Sys2Proof.Machine
end

