-- ==== Sys2Proof/Machine/State.lean ====
section
/-! DEFINITION. The state of one eggshell encoder: the spec's five elements (10_state.md R11), the
build parameter they depend on, and the block's ports over the coming clock edges; the reasons a step
can stop; the state after reset. -/

namespace Sys2Proof.Machine

/-- LSTATE (10_state.md R12). The codes 5, 6 and 7 are never held and have no constructor
(93_implementation_defined.md U8). -/
inductive LState where
  /-- no line has been opened since reset -/
  | idle
  /-- OPEN: a line is open and no error has been found in it -/
  | openLine
  /-- a line is open and an error is latched -/
  | stop
  /-- the last line was closed without error; its output is committed -/
  | doneOk
  /-- the last line was closed with an error latched; its output is discarded -/
  | doneErr
  deriving DecidableEq, Repr

/-- ERRK (10_state.md R13). Code 3 is never held and has no constructor. -/
inductive ErrKind where
  | none
  | invalidChar
  | capacity
  deriving DecidableEq, Repr

/-- PCAUSE (10_state.md R14). -/
inductive PCause where
  | none
  | pushClosed
  | endClosed
  | reservedOp
  deriving DecidableEq, Repr

/-- The four host-visible registers (10_state.md R15). -/
inductive Register where
  | status | count | olen | cap
  deriving DecidableEq, Repr

/-- The cells of BUF that a PUSH has written, by rising address (10_state.md R17). An unlisted cell
holds an unspecified value (log entry 6). -/
abbrev Memory := List Host.Cell

/-- The values on the block's ports at one rising edge of `clk` (30_encoding.md R28). All are inputs of
the block but `cmdReady`, which the build chooses: it may hold it at 0 for any finite time
(70_reset_and_hazards.md R58, 93_implementation_defined.md U5; log entry 9). -/
structure PortCycle where
  rst : Bool
  cmdValid : Bool
  cmdReady : Bool
  cmdOp : BitVec 2
  cmdCp : CodePoint
  obAddr : Word
  regNum : BitVec 2
  xCp : CodePoint
  deriving DecidableEq, Repr

/-- What has stood on the command port since the last edge that accepted a command, reset the block or
saw no command: nothing, or a command that is not accepted yet (30_encoding.md R28,
70_reset_and_hazards.md R57 duty 4). -/
inductive Presented where
  /-- no command waits -/
  | nothing
  /-- `cw` was presented at every edge of the wait -/
  | waiting (cw : CmdWord)
  /-- a command waits whose fields were not held stable: which one is accepted is not specified
  (93_implementation_defined.md U13) -/
  | unstable
  deriving DecidableEq, Repr

/-- The machine. The first five fields are the spec's state (10_state.md R11); the rest is the model's:
the build parameter (log entry 1), the ports over the coming edges (log entry 2), the command that waits
on the port (log entry 4) and the counter of the free values (log entry 6). -/
structure State where
  lstate : LState
  errk : ErrKind
  pcause : PCause
  /-- N, the character count (10_state.md R16) -/
  n : Nat
  /-- BUF, the output buffer (10_state.md R17) -/
  buf : Memory
  params : Params
  /-- the ports at the coming rising edges, the next one first -/
  inputs : List PortCycle
  /-- the command that waits on the port -/
  held : Presented
  /-- which draw of free values unwritten cells hold -/
  draw : Nat
  deriving DecidableEq, Repr

/-- The block has no fault: "no behaviour of this block is a fault or stuck"
(93_implementation_defined.md section 1; 41_line_commands.md R40). Nothing raises one (log entry 10). -/
inductive Fault where
  deriving DecidableEq, Repr

/-- Why a step has no meaning. -/
inductive Refusal where
  /-- Raised by an arm of `exec` whose instruction has no meaning yet; no arm is left so. Safe. -/
  | notModelled (mnemonic : String)
  /-- Raised by `step` at an edge that accepts a command whose fields were not held stable while it
  waited: "Which command is accepted is not specified" (93_implementation_defined.md U13, treatment
  `refuse`; 70_reset_and_hazards.md R57 duty 4). Safe (log entry 4). -/
  | handshakeBroken
  deriving DecidableEq, Repr

/-- A block with the given build parameter right after reset (10_state.md R18): LSTATE IDLE, ERRK NONE,
PCAUSE NONE, N 0, no cell with a known value. Nothing is presented on its ports (log entry 8). -/
def State.resetWith (p : Params) : State where
  lstate := .idle
  errk := .none
  pcause := .none
  n := 0
  buf := []
  params := p
  inputs := []
  held := .nothing
  draw := 0

/-- The machine right after reset (10_state.md R18), at the capacity of log entry 1. -/
def State.reset : State := .resetWith resetParams

end Sys2Proof.Machine
end

