-- ==== Sys2Proof/Machine/Ops.lean ====
section
/-! DEFINITION. The named operations over the state: one field each, the buffer's cells, the two ways
a command reports an event (60_exceptions.md R47, R49), and the reset event (70_reset_and_hazards.md R55). -/

namespace Sys2Proof.Machine

/-! ## One field -/

/-- `LSTATE <- v` -/
def State.withLState (v : LState) (s : State) : State := { s with lstate := v }

/-- `ERRK <- v` -/
def State.withErrk (v : ErrKind) (s : State) : State := { s with errk := v }

/-- `PCAUSE <- v` -/
def State.withPcause (v : PCause) (s : State) : State := { s with pcause := v }

/-- `N <- v` -/
def State.withCount (v : Nat) (s : State) : State := { s with n := v }

/-- BUF becomes `v`. -/
def State.withBuf (v : Memory) (s : State) : State := { s with buf := v }

/-- The edge at the head of the ports is over: `rest` is to come and `h` waits on the port. -/
def State.withPorts (rest : List PortCycle) (h : Presented) (s : State) : State :=
  { s with inputs := rest, held := h }

/-- A new draw of the free values of unwritten cells (log entry 6). -/
def State.redraw (s : State) : State := { s with draw := s.draw + 1 }

/-! ## The cells of BUF -/

/-- The canonical form: addresses strictly rising. An unlisted cell has no known value, so no entry can
equal one. -/
abbrev Memory.wf (m : Memory) : Prop := (m.map Prod.fst).Pairwise (· < ·)

/-- What a PUSH wrote to cell `a`, if one did. -/
def Memory.read? : Memory → Nat → Option Byte
  | [], _ => none
  | (b, v) :: m, a => if a = b then some v else Memory.read? m a

/-- `MemWrite(a, 1, v)` (00_scope.md R10). -/
def Memory.write : Memory → Nat → Byte → Memory
  | [], a, v => [(a, v)]
  | (b, w) :: m, a, v =>
    if a < b then (a, v) :: (b, w) :: m
    else if a = b then (a, v) :: m
    else (b, w) :: Memory.write m a v

/-- `MemWrite(a + k, 1, vs(k))` for every `k` (41_line_commands.md R42). -/
def Memory.writeSeq : Memory → Nat → List Byte → Memory
  | m, _, [] => m
  | m, a, v :: vs => Memory.writeSeq (m.write a v) (a + 1) vs

/-- BUF[a]: what was written there, else the free value in force (10_state.md R17; log entry 6). -/
def State.cell (s : State) (a : Nat) : Byte := (s.buf.read? a).getD (Config.freeCell s.draw a)

/-! ## Events -/

/-- `raise LineError(kind)` (60_exceptions.md R47). -/
def raiseLineError (kind : ErrKind) (s : State) : State := (s.withErrk kind).withLState .stop

/-- `raise ProtocolViolation(cause)` (60_exceptions.md R49): the first cause sticks. -/
def raiseProtocolViolation (cause : PCause) (s : State) : State :=
  if s.pcause = .none then s.withPcause cause else s

/-- What CLR does in every state (41_line_commands.md R41); BUF is not written. -/
def openEmptyLine (s : State) : State :=
  (((s.withLState .openLine).withErrk .none).withPcause .none).withCount 0

/-- The byte address of character `i`'s lane 0 (20_memory.md R20). -/
def laneAddr (i : Nat) : Nat := 7 * i

/-- A PUSH that accepts its character: the block goes to cells `7*N` on and N moves forward
(41_line_commands.md R42). -/
def acceptBlock (blk : List Byte) (s : State) : State :=
  (s.withBuf (s.buf.writeSeq (laneAddr s.n) blk)).withCount (s.n + 1)

/-- The reset event (70_reset_and_hazards.md R55, 10_state.md R18). The cells "are left as they are or
made unspecified": the model makes them unspecified, which allows both (log entry 7). -/
def takeReset (s : State) : State :=
  (((((s.withLState .idle).withErrk .none).withPcause .none).withCount 0).withBuf []).redraw

end Sys2Proof.Machine
end

