-- ==== Sys2Proof/Machine/Line.lean ====
section
/-! DEFINITION. The meanings of the line commands CLR, PUSH, END and RSV (41_line_commands.md R41 to
R44). Each answers a next state: no command blocks, traps or faults (R40). -/

namespace Sys2Proof.Machine

/-- CLR opens a new line in every state; the `cp` field is ignored (41_line_commands.md R41). -/
def execClr (_cp : CodePoint) (s : State) : Host.Outcome State Fault Refusal :=
  .next (openEmptyLine s)

/-- PUSH encodes one character of the open line. INVALID_CHAR is tested before CAPACITY
(41_line_commands.md R42, 60_exceptions.md R48). -/
def execPush (cp : CodePoint) (s : State) : Host.Outcome State Fault Refusal :=
  match s.lstate with
  | .openLine =>
    match expand cp with
    | none => .next (raiseLineError .invalidChar s)
    | some blk =>
      if s.n = s.params.maxc then .next (raiseLineError .capacity s) else .next (acceptBlock blk s)
  | .stop => .next s
  | .idle => .next (raiseProtocolViolation .pushClosed s)
  | .doneOk => .next (raiseProtocolViolation .pushClosed s)
  | .doneErr => .next (raiseProtocolViolation .pushClosed s)

/-- END commits or discards the line; the `cp` field is ignored (41_line_commands.md R43). -/
def execEnd (_cp : CodePoint) (s : State) : Host.Outcome State Fault Refusal :=
  match s.lstate with
  | .openLine => .next (s.withLState .doneOk)
  | .stop => .next (s.withLState .doneErr)
  | .idle => .next (raiseProtocolViolation .endClosed s)
  | .doneOk => .next (raiseProtocolViolation .endClosed s)
  | .doneErr => .next (raiseProtocolViolation .endClosed s)

/-- RSV is ignored and recorded, in every LSTATE (41_line_commands.md R44). -/
def execRsv (_cp : CodePoint) (s : State) : Host.Outcome State Fault Refusal :=
  .next (raiseProtocolViolation .reservedOp s)

end Sys2Proof.Machine
end

