-- ==== Sys2Proof/Machine/Dispatch.lean ====
section
/-! DEFINITION. One arm per command (41_line_commands.md R40). -/

namespace Sys2Proof.Machine

/-- The effect of one accepted command. -/
def exec (i : Instr) (s : State) : Host.Outcome State Fault Refusal :=
  match i with
  | .clr cp => Sys2Proof.Machine.execClr cp s
  | .push cp => Sys2Proof.Machine.execPush cp s
  | .endLine cp => Sys2Proof.Machine.execEnd cp s
  | .rsv cp => Sys2Proof.Machine.execRsv cp s

end Sys2Proof.Machine
end

