-- ==== Sys2Proof/Machine/Ports.lean ====
section
/-! DEFINITION. The command port and reset at one rising edge (30_encoding.md R28;
70_reset_and_hazards.md R55, R57, R58). -/

namespace Sys2Proof.Machine

/-- The command word on the port: `CW = (cmd_op, cmd_cp)` (30_encoding.md R28). -/
def PortCycle.cmdWord (c : PortCycle) : CmdWord := c.cmdOp ++ c.cmdCp

/-- What one rising edge does. -/
inductive PortAction where
  /-- `rst = 1`: the block resets and accepts nothing -/
  | reset
  /-- `cmd_valid = 1`, `cmd_ready = 1` and `rst = 0`: the command is accepted -/
  | accept (cw : CmdWord)
  /-- no command is accepted -/
  | keep
  /-- a command is accepted, but its fields were not held stable while it waited -/
  | broken
  deriving DecidableEq, Repr

/-- The command fields at this edge are those that have waited so far, if any did
(70_reset_and_hazards.md R57 duty 4). -/
def steady (held : Presented) (c : PortCycle) : Bool :=
  match held with
  | .nothing => true
  | .waiting cw => c.cmdWord == cw
  | .unstable => false

/-- What waits on the port after an edge: the command that was presented and not accepted, unless the
edge is a reset (70_reset_and_hazards.md R55, R57 duty 4; log entries 4 and 5). -/
def presentedAfter (held : Presented) (c : PortCycle) : Presented :=
  if c.rst then .nothing
  else if c.cmdValid && !c.cmdReady then
    if steady held c then .waiting c.cmdWord else .unstable
  else .nothing

/-- What one edge does. Reset wins over a command presented at the same edge (70_reset_and_hazards.md
R55). A command is accepted when `cmd_valid` and `cmd_ready` are both 1 (30_encoding.md R28), and with
no command accepted the block keeps its state (60_exceptions.md R54). Which command is accepted after
unstable fields is not specified (93_implementation_defined.md U13; log entry 4). -/
def portAction (held : Presented) (c : PortCycle) : PortAction :=
  if c.rst then .reset
  else if !(c.cmdValid && c.cmdReady) then .keep
  else if steady held c then .accept c.cmdWord
  else .broken

/-- The edge at which `cw` is accepted, every read port at address 0 and `x_cp` at 0. -/
def commandCycle (cw : CmdWord) : PortCycle where
  rst := false
  cmdValid := true
  cmdReady := true
  cmdOp := cw.extractLsb' 32 2
  cmdCp := cw.extractLsb' 0 32
  obAddr := 0#32
  regNum := 0#2
  xCp := 0#32

/-- The next edge accepts `cw`, and no other command waits (log entry 8). -/
def presentNext (cw : CmdWord) (s : State) : State :=
  s.withPorts (commandCycle cw :: s.inputs) .nothing

end Sys2Proof.Machine
end

