-- ==== Sys2Proof/Machine/Step.lean ====
section
/-! DEFINITION. One step: one rising edge of `clk`. An edge that accepts a command runs it in this one
atomic step (00_scope.md R7, 41_line_commands.md R40); a reset edge resets (70_reset_and_hazards.md R55);
any other edge keeps the block's state (60_exceptions.md R54). -/

namespace Sys2Proof.Machine

/-- One rising edge. With nothing more to come on the ports, the block keeps all its state
(60_exceptions.md R54; log entry 3). -/
def step (s : State) : Host.Outcome State Fault Refusal :=
  match s.inputs with
  | [] => .next s
  | c :: rest =>
    match portAction s.held c with
    | .reset => .next (takeReset (s.withPorts rest .nothing))
    | .accept cw => exec (decode cw) (s.withPorts rest .nothing)
    | .keep => .next (s.withPorts rest (presentedAfter s.held c))
    | .broken => .refused .handshakeBroken

/-- The command word `w` (its low `nbits` bits) is what the next edge accepts (log entries 8 and 16). -/
def State.withFetchWord (s : State) (nbits w : Nat) : State :=
  presentNext (BitVec.ofNat 34 (w % 2 ^ nbits)) s

end Sys2Proof.Machine
end

