-- ==== Sys2Proof/WellFormed.lean ====
section
/-! DEFINITION. The checks on terms that the spec bounds: a command given as two numbers, a build
parameter, and the form of a command that the assembler can write. Every `Instr` is a legal command:
no encoding is illegal (30_encoding.md R31), so no check stands between a decoded command and `exec`. -/

namespace Sys2Proof

/-- A command named by two plain numbers, before they are known to fit their fields. -/
structure RawCommand where
  op : Nat
  cp : Nat
  deriving DecidableEq, Repr

/-- The numbers fit `op : bits(2)` and `cp : bits(32)` (30_encoding.md R28). -/
def RawCommand.wellFormed (r : RawCommand) : Bool :=
  decide (r.op < 2 ^ 2) && decide (r.cp < 2 ^ Config.CPW)

/-- `1 <= MAXC <= 613566756` (00_scope.md R4). -/
def Params.wellFormed (p : Params) : Bool :=
  decide (1 ≤ p.maxc) && decide (p.maxc ≤ Config.maxcLimit)

/-- The commands that the assembler has a spelling for: CLR and END take no operand and encode
`cp = 0` (30_encoding.md R33). The hardware does not ask for this (R30). -/
def Instr.spelled : Instr → Bool
  | .clr cp => cp == 0#32
  | .push _ => true
  | .endLine cp => cp == 0#32
  | .rsv _ => true

/-- A decimal operand's range, `-2^(CPW-1)` to `2^CPW - 1` (30_encoding.md R33). The other two forms
have none. -/
def AsmOperand.wellFormed : AsmOperand → Bool
  | .decimal v => decide (-(2 ^ (Config.CPW - 1) : Int) ≤ v) && decide (v ≤ (2 ^ Config.CPW : Int) - 1)
  | .hex _ => true
  | .char _ => true

/-- Every operand of the statement is in range. -/
def AsmStmt.wellFormed : AsmStmt → Bool
  | .clr => true
  | .push v => v.wellFormed
  | .endLine => true
  | .rsv none => true
  | .rsv (some v) => v.wellFormed
  | .lineString _ => true
  | .lineList vs => vs.all AsmOperand.wellFormed

end Sys2Proof
end

