-- ==== Sys2Proof/Machine/Operands.lean ====
section
/-! DEFINITION. Operands: how a number becomes the `cp` field (30_encoding.md R30, R33), and how a host
turns a character into one (92_eei_decisions.md D24). -/

namespace Sys2Proof.Machine

/-- An integer reduced modulo `2^CPW`; a negative one arrives in two's complement (30_encoding.md R30,
R33). -/
def codePointOfInt (v : Int) : CodePoint := BitVec.ofInt 32 v

/-- A character's code point (30_encoding.md R33, R34; 92_eei_decisions.md D24; log entry 20). -/
def codePointOfChar (c : Char) : CodePoint := BitVec.ofNat 32 c.toNat

/-- The value of an assembler operand; a decimal out of range has none (30_encoding.md R33). -/
def operandValue (v : AsmOperand) : Option CodePoint :=
  match v with
  | .decimal x => if v.wellFormed then some (codePointOfInt x) else none
  | .hex n => some (BitVec.ofNat 32 n)
  | .char c => some (codePointOfChar c)

end Sys2Proof.Machine
end

