-- ==== Sys2Proof/Machine/Flags.lean ====
section
/-! DEFINITION. The codes of LSTATE, ERRK and PCAUSE (10_state.md R12 to R14) and the STATUS word made
of them (R15). The block has no other flags. -/

namespace Sys2Proof.Machine

/-- The code of LSTATE (10_state.md R12). -/
def LState.code : LState → BitVec 3
  | .idle => 0#3
  | .openLine => 1#3
  | .stop => 2#3
  | .doneOk => 3#3
  | .doneErr => 4#3

/-- The code of ERRK (10_state.md R13). -/
def ErrKind.code : ErrKind → BitVec 2
  | .none => 0#2
  | .invalidChar => 1#2
  | .capacity => 2#2

/-- The code of PCAUSE (10_state.md R14). -/
def PCause.code : PCause → BitVec 2
  | .none => 0#2
  | .pushClosed => 1#2
  | .endClosed => 2#2
  | .reservedOp => 3#2

/-- PCAUSE, ERRK, LSTATE side by side, PCAUSE most significant (10_state.md R15). -/
def statusFields (s : State) : BitVec 7 := s.pcause.code ++ s.errk.code ++ s.lstate.code

/-- `REG(STATUS)`: bits 31:7 are hardwired 0 (10_state.md R15). -/
def statusWord (s : State) : Word := (statusFields s).setWidth 32

end Sys2Proof.Machine
end

