-- ==== Sys2Proof/Machine/Reads.lean ====
section
/-! DEFINITION. What the host can read: the output buffer (20_memory.md R19), the four registers
(10_state.md R15, 20_memory.md R21), and all outputs of the block in one cycle (70_reset_and_hazards.md
R58). A read gives a value and no state: it has no side effect (20_memory.md R22). -/

namespace Sys2Proof.Machine

/-- `MemRead(a, 1)`: a committed byte in DONE_OK below `7 * N`, `0x00` everywhere else
(20_memory.md R19). No address faults (R25). -/
def memRead (s : State) (a : Word) : Byte :=
  if s.lstate = .doneOk ∧ a.toNat < 7 * s.n then s.cell a.toNat else 0#8

/-- The register a number selects; every number is defined (10_state.md R15). -/
def registerOf (r : BitVec 2) : Register :=
  match r.toFin with
  | 0 => .status
  | 1 => .count
  | 2 => .olen
  | 3 => .cap

/-- `REG(name)` (10_state.md R15). -/
def regRead (s : State) : Register → Word
  | .status => statusWord s
  | .count => BitVec.ofNat 32 s.n
  | .olen => if s.lstate = .doneOk then BitVec.ofNat 32 (7 * s.n) else 0#32
  | .cap => BitVec.ofNat 32 s.params.maxc

/-- The block's outputs in one cycle (30_encoding.md R28). There is no interrupt output (R50). -/
structure PortOutputs where
  cmdReady : Bool
  obRdata : Byte
  regRdata : Word
  xOk : Bool
  xChars : PackedBlock
  deriving DecidableEq, Repr

/-- The outputs are combinational: they come from the state before the edge and the addresses present
(70_reset_and_hazards.md R58), so a read in the cycle that accepts a command sees the state before it. -/
def portOutputs (s : State) (c : PortCycle) : PortOutputs where
  cmdReady := c.cmdReady
  obRdata := memRead s c.obAddr
  regRdata := regRead s (registerOf c.regNum)
  xOk := Machine.xOk c.xCp
  xChars := Machine.xChars c.xCp

end Sys2Proof.Machine
end

