-- ==== Sys2Proof/Machine/Driver.lean ====
section
/-! DEFINITION. Commands in sequence, the pseudo-command LINE (30_encoding.md R34), and the contract of
the host's entry point with the block (60_exceptions.md R53). -/

namespace Sys2Proof.Machine

/-- The commands of a list, one after another, each from the state the one before it left. -/
def execAll : List Instr → State → Host.Outcome State Fault Refusal
  | [], s => .next s
  | i :: is, s =>
    match exec i s with
    | .next t => execAll is t
    | .fault f => .fault f
    | .refused r => .refused r

/-- What LINE expands to: CLR, one PUSH a code point, END (30_encoding.md R34). -/
def lineCommands (cps : List CodePoint) : List Instr :=
  .clr 0#32 :: cps.map .push ++ [.endLine 0#32]

/-- The bytes `0 .. OLEN-1` as the host reads them, in increasing address order (60_exceptions.md R53,
20_memory.md R20). -/
def readOutput (s : State) : List Byte :=
  (List.range (regRead s .olen).toNat).map fun a => memRead s (BitVec.ofNat 32 a)

/-- "Invalid character; must be ASCII" and a newline (60_exceptions.md R53). -/
def invalidCharMessage : List Char := "Invalid character; must be ASCII\n".toList

/-- What the host does with STATUS after END (60_exceptions.md R53): LSTATE DONE_OK is success, ERRK 1 is
the source's error, and what is left is CAPACITY, whose policy is open (log entries 15 and 22). -/
def hostReport (arg : List Char) (s : State) : HostResult :=
  let status := regRead s .status
  if status.extractLsb' 0 3 = LState.doneOk.code then ⟨readOutput s, [], 0⟩
  else if status.extractLsb' 3 2 = ErrKind.invalidChar.code then ⟨[], invalidCharMessage, 1⟩
  else Config.hostCapacityPolicy arg

/-- The entry point: with no argument it sends no command and ends with status 0; with one it sends
`LINE s` and reports (60_exceptions.md R53). -/
def hostRun (arg : Option (List Char)) (s : State) :
    Host.Outcome (State × HostResult) Fault Refusal :=
  match arg with
  | none => .next (s, ⟨[], [], 0⟩)
  | some cs =>
    match execAll (lineCommands (cs.map codePointOfChar)) s with
    | .next t => .next (t, hostReport cs t)
    | .fault f => .fault f
    | .refused r => .refused r

end Sys2Proof.Machine
end

