-- ==== Sys2Proof/Machine/Assembler.lean ====
section
/-! DEFINITION. The assembler: what a statement stands for (30_encoding.md R33, R34), and the reading of
a line of text. Log entry 14 names the details of the text that the two rules do not give. -/

namespace Sys2Proof.Machine

/-! ## Statements -/

/-- Every value of a list, or none where one of them has none. -/
def allSome {α : Type} : List (Option α) → Option (List α)
  | [] => some []
  | none :: _ => none
  | some x :: xs => (allSome xs).map fun ys => x :: ys

/-- The commands a statement stands for; none where an operand is out of range (30_encoding.md R33,
R34). -/
def stmtCommands : AsmStmt → Option (List Instr)
  | .clr => some [.clr 0#32]
  | .push v => (operandValue v).map fun cp => [.push cp]
  | .endLine => some [.endLine 0#32]
  | .rsv none => some [.rsv 0#32]
  | .rsv (some v) => (operandValue v).map fun cp => [.rsv cp]
  | .lineString cs => some (lineCommands (cs.map codePointOfChar))
  | .lineList vs => (allSome (vs.map operandValue)).map lineCommands

/-- The command words a statement assembles to. -/
def assembleStmt (t : AsmStmt) : Option (List CmdWord) := (stmtCommands t).map (List.map encode)

/-! ## Text -/

/-- Why a line of text is no statement. All are safe: nothing is assembled. -/
inductive AsmError where
  /-- The line begins with no mnemonic of R33 or R34. -/
  | unknownMnemonic
  /-- The operand has none of the forms of R33 or R34, or is missing. -/
  | badOperand
  /-- A decimal operand is out of the range of R33. -/
  | outOfRange
  /-- Text that is no comment follows the statement. -/
  | textAfterStatement
  deriving DecidableEq, Repr

/-- Space or horizontal tab. -/
def isBlank (c : Char) : Bool := c == ' ' || c == '\t'

/-- The text without its leading blanks. -/
def skipBlanks (cs : List Char) : List Char := cs.dropWhile isBlank

/-- Nothing but blanks and a comment is left: `;` starts a comment (30_encoding.md R33). -/
def atLineEnd (cs : List Char) : Bool :=
  match skipBlanks cs with
  | [] => true
  | c :: _ => c == ';'

/-- A mnemonic ends at a blank, a comment or the end of the line. -/
def mnemonicEnds (cs : List Char) : Bool :=
  match cs with
  | [] => true
  | c :: _ => isBlank c || c == ';'

/-- The value of a decimal digit. -/
def decimalDigit (c : Char) : Option Nat :=
  if '0' ≤ c ∧ c ≤ '9' then some (c.toNat - '0'.toNat) else none

/-- The value of a hexadecimal digit, capital or small. -/
def hexDigit (c : Char) : Option Nat :=
  if 'a' ≤ c ∧ c ≤ 'f' then some (c.toNat - 'a'.toNat + 10)
  else if 'A' ≤ c ∧ c ≤ 'F' then some (c.toNat - 'A'.toNat + 10)
  else decimalDigit c

/-- The number that the longest run of digits at the head of the text writes, after `acc`, and the rest
of the text. -/
def readDigits (digit : Char → Option Nat) (base : Nat) : Nat → List Char → Nat × List Char
  | acc, [] => (acc, [])
  | acc, c :: cs =>
    match digit c with
    | some d => readDigits digit base (acc * base + d) cs
    | none => (acc, c :: cs)

/-- A number of at least one digit. -/
def readNumber (digit : Char → Option Nat) (base : Nat) (cs : List Char) : Option (Nat × List Char) :=
  match cs with
  | [] => none
  | c :: _ => if (digit c).isSome then some (readDigits digit base 0 cs) else none

/-- The character an escape stands for (30_encoding.md R33). -/
def escapeOf (c : Char) : Option Char :=
  if c == 't' then some '\t'
  else if c == 'n' then some '\n'
  else if c == '\\' then some '\\'
  else if c == '\'' then some '\''
  else none

/-- A `<cp>` at the head of the text, and the rest (30_encoding.md R33). -/
def readOperand (cs : List Char) : Option (AsmOperand × List Char) :=
  match cs with
  | '\'' :: '\\' :: e :: '\'' :: rest => (escapeOf e).map fun c => (.char c, rest)
  | '\'' :: c :: '\'' :: rest => if c == '\\' || c == '\'' then none else some (.char c, rest)
  | '0' :: 'x' :: rest => (readNumber hexDigit 16 rest).map fun r => (.hex r.1, r.2)
  | '-' :: rest => (readNumber decimalDigit 10 rest).map fun r => (.decimal (-(r.1 : Int)), r.2)
  | _ => (readNumber decimalDigit 10 cs).map fun r => (.decimal (r.1 : Int), r.2)

/-- The double quote that opens and closes the string of LINE. -/
def doubleQuote : Char := Char.ofNat 34

/-- The characters of a string up to its closing quote, escapes read, and the rest (30_encoding.md
R34). -/
def readString : List Char → Option (List Char × List Char)
  | [] => none
  | '\\' :: e :: rest =>
    match escapeOf e with
    | some c => (readString rest).map fun r => (c :: r.1, r.2)
    | none => none
  | c :: rest =>
    if c == doubleQuote then some ([], rest)
    else if c == '\\' then none
    else (readString rest).map fun r => (c :: r.1, r.2)

/-- The values after the opening bracket of a list, up to its closing bracket, and the rest. `fuel` is
at least the number of values. -/
def readList : Nat → List Char → Option (List AsmOperand × List Char)
  | 0, _ => none
  | fuel + 1, cs =>
    match readOperand (skipBlanks cs) with
    | none => none
    | some (v, rest) =>
      match skipBlanks rest with
      | ']' :: rest => some ([v], rest)
      | ',' :: rest => (readList fuel rest).map fun r => (v :: r.1, r.2)
      | _ => none

/-- The statement after the mnemonic LINE (30_encoding.md R34). -/
def readLineArgument (cs : List Char) : Option (AsmStmt × List Char) :=
  match skipBlanks cs with
  | '[' :: rest =>
    match skipBlanks rest with
    | ']' :: rest => some (.lineList [], rest)
    | _ => (readList rest.length rest).map fun r => (.lineList r.1, r.2)
  | c :: rest =>
    if c == doubleQuote then (readString rest).map fun r => (.lineString r.1, r.2) else none
  | [] => none

/-- The statement that a mnemonic and the text after it make, and the rest of the text. -/
def readStmt (mnemonic rest : List Char) : Except AsmError (AsmStmt × List Char) :=
  if !mnemonicEnds rest then .error .unknownMnemonic
  else if mnemonic = ['C', 'L', 'R'] then .ok (.clr, rest)
  else if mnemonic = ['E', 'N', 'D'] then .ok (.endLine, rest)
  else if mnemonic = ['P', 'U', 'S', 'H'] then
    match readOperand (skipBlanks rest) with
    | some (v, rest) => .ok (.push v, rest)
    | none => .error .badOperand
  else if mnemonic = ['R', 'S', 'V'] then
    if atLineEnd rest then .ok (.rsv none, rest)
    else
      match readOperand (skipBlanks rest) with
      | some (v, rest) => .ok (.rsv (some v), rest)
      | none => .error .badOperand
  else if mnemonic = ['L', 'I', 'N', 'E'] then
    match readLineArgument rest with
    | some r => .ok r
    | none => .error .badOperand
  else .error .unknownMnemonic

/-- One line of text: no statement, or one (30_encoding.md R33). -/
def parseLine (cs : List Char) : Except AsmError (Option AsmStmt) :=
  if atLineEnd cs then .ok none
  else
    match readStmt ((skipBlanks cs).takeWhile Char.isUpper) ((skipBlanks cs).dropWhile Char.isUpper) with
    | .error e => .error e
    | .ok (t, rest) => if atLineEnd rest then .ok (some t) else .error .textAfterStatement

/-- The command words of one line of text. -/
def assembleLine (cs : List Char) : Except AsmError (List CmdWord) :=
  match parseLine cs with
  | .error e => .error e
  | .ok none => .ok []
  | .ok (some t) =>
    match assembleStmt t with
    | some ws => .ok ws
    | none => .error .outOfRange

/-- The command words of a program, one statement a line. -/
def assemble : List (List Char) → Except AsmError (List CmdWord)
  | [] => .ok []
  | l :: ls =>
    match assembleLine l with
    | .error e => .error e
    | .ok ws =>
      match assemble ls with
      | .error e => .error e
      | .ok vs => .ok (ws ++ vs)

end Sys2Proof.Machine
end

