-- ==== Sys2Proof/Safety.lean ====
section
/-! DEFINITION. The terms claims use: the invariant of the machine, the agreement of two states, the
host's duties (70_reset_and_hazards.md R57), and what a stream of clock edges amounts to. -/

namespace Sys2Proof.Machine

/-! ## The invariant -/

/-- A line error is latched exactly in STOP and DONE_ERR. -/
def LState.failed (l : LState) : Bool := l == .stop || l == .doneErr

/-- A line is open (41_line_commands.md R42, R43). -/
def LState.lineOpen (l : LState) : Bool := l == .openLine || l == .stop

/-- What every reachable state satisfies. -/
structure State.Inv (s : State) : Prop where
  /-- `1 <= MAXC <= 613566756` (00_scope.md R4) -/
  params_ok : s.params.wellFormed = true
  /-- N never exceeds MAXC (10_state.md R16) -/
  count_le : s.n ≤ s.params.maxc
  /-- "ERRK != NONE holds exactly when LSTATE is STOP or DONE_ERR" (10_state.md R13) -/
  errk_iff : s.errk ≠ .none ↔ s.lstate.failed = true
  /-- "With ERRK == CAPACITY it is MAXC" (10_state.md R16) -/
  capacity_full : s.errk = .capacity → s.n = s.params.maxc
  /-- no line has been opened, so no character was accepted -/
  idle_empty : s.lstate = .idle → s.n = 0
  /-- BUF keeps its canonical form -/
  buf_wf : s.buf.wf
  /-- BUF has the cells `0 .. OBYTES-1` (10_state.md R17) -/
  buf_bound : ∀ a, s.params.obytes ≤ a → s.buf.read? a = none
  /-- only lane values are ever written (10_state.md R17, 40_expander.md R36) -/
  buf_alphabet : ∀ a v, s.buf.read? a = some v → v = Config.SP ∨ v = Config.TAB
  /-- every cell below `7 * N` was written (10_state.md R17) -/
  buf_filled : ∀ a, a < 7 * s.n → (s.buf.read? a).isSome = true

/-! ## Agreement of states -/

/-- Nothing the host can read tells the two states apart (20_memory.md R19, R21). -/
def sameReads (s t : State) : Prop :=
  (∀ r, regRead s r = regRead t r) ∧ ∀ a, memRead s a = memRead t a

/-- The two states agree in everything but PCAUSE. -/
def samePcauseAside (s t : State) : Prop := s.withPcause .none = t.withPcause .none

/-- No command touches these: the parameter, the ports, the waiting command and the free values. -/
def sameElsewhere (s t : State) : Prop :=
  t.params = s.params ∧ t.inputs = s.inputs ∧ t.held = s.held ∧ t.draw = s.draw

/-- Every cell of BUF, written or not, holds what it held. -/
def sameCells (s t : State) : Prop :=
  (∀ a, t.buf.read? a = s.buf.read? a) ∧ ∀ a, t.cell a = s.cell a

/-- A step that stores nothing and leaves N alone: what is left to say is LSTATE, ERRK and PCAUSE. -/
def storesNothing (s t : State) : Prop := t.n = s.n ∧ sameCells s t ∧ sameElsewhere s t

/-- The code points of the PUSH commands of a list, in order. -/
def pushedCodePoints (is : List Instr) : List CodePoint :=
  is.filterMap fun
    | .push cp => some cp
    | .clr _ => none
    | .endLine _ => none
    | .rsv _ => none

/-- The list holds no CLR, so that it belongs to one line at most. -/
def withinOneLine (is : List Instr) : Bool := is.all fun i => i.opcode != .clr

/-! ## Runs -/

/-- `k` rising edges, stopping where a step does. -/
def steps : Nat → State → Host.Outcome State Fault Refusal
  | 0, s => .next s
  | k + 1, s =>
    match step s with
    | .next t => steps k t
    | .fault f => .fault f
    | .refused r => .refused r

/-! ## The host's duties -/

/-- Duty 1, order (70_reset_and_hazards.md R57): given whether a line is open, the commands are whole
lines or parts of one, CLR before the first PUSH and END after the last, and no reserved opcode. -/
def ordered : Bool → List Instr → Bool
  | _, [] => true
  | _, .clr _ :: is => ordered true is
  | isOpen, .push _ :: is => isOpen && ordered true is
  | isOpen, .endLine _ :: is => isOpen && ordered false is
  | _, .rsv _ :: _ => false

/-- Duty 2, read window (70_reset_and_hazards.md R57): the states in which the host reads the output. -/
def readWindow (s : State) : Bool := s.lstate == .doneOk

/-- The host holds what it must: nothing, or the very command that waits, still presented. -/
def holds (held : Presented) (c : PortCycle) : Bool :=
  match held with
  | .nothing => true
  | .waiting cw => c.cmdValid && c.cmdWord == cw
  | .unstable => false

/-- Duty 4, handshake (70_reset_and_hazards.md R57): a command that was presented and not accepted is
presented again, unchanged, unless the edge is a reset. -/
def keepsHandshake : Presented → List PortCycle → Bool
  | _, [] => true
  | held, c :: cs => (c.rst || holds held c) && keepsHandshake (presentedAfter held c) cs

/-- The part of duty 4 that decides which command is accepted (93_implementation_defined.md U13): a
command that is accepted was held stable while it waited. A host that drops a waiting command, or that
changes its fields and drops it, keeps this part too. -/
def acceptsSteadily : Presented → List PortCycle → Bool
  | _, [] => true
  | held, c :: cs =>
    (c.rst || !c.cmdValid || !c.cmdReady || steady held c) &&
      acceptsSteadily (presentedAfter held c) cs

/-- No edge of the stream is a reset (duty 5 does not arise). -/
def noReset (cs : List PortCycle) : Bool := cs.all fun c => !c.rst

/-- The command an edge accepts, if any (30_encoding.md R28, 70_reset_and_hazards.md R58). -/
def acceptedAt (c : PortCycle) : Option Instr :=
  if !c.rst && c.cmdValid && c.cmdReady then some (decode c.cmdWord) else none

/-- The commands that a stream of edges gets accepted, in order. -/
def acceptedCommands (cs : List PortCycle) : List Instr := cs.filterMap acceptedAt

/-- What waits on the port after the last edge of a stream. -/
def presentedAtEnd : Presented → List PortCycle → Presented
  | held, [] => held
  | held, c :: cs => presentedAtEnd (presentedAfter held c) cs

end Sys2Proof.Machine
end

