-- ==== Sys2Proof/Certificates/Slice0/Obligations.lean ====
section
/-! DEFINITION. The statements for the provers. Each docstring names the rules of spec/ it formalises.
Statements hold for every capacity `MAXC`: each state carries its own (log entry 1). -/

open Sys2Proof Sys2Proof.Machine

/-! ## Encoding -/

/-- The words that 30_encoding.md R33 and 95_test_vectors.md V28 write out decode to the commands they
stand for. -/
def Obligations.SpecWordsDecodeToTheirCommands : Prop :=
  decodeTableWord 40 0x000000000 = some (.clr 0#32) ∧
  decodeTableWord 40 0x100000041 = some (.push 0x41#32) ∧
  decodeTableWord 40 0x1FFFFFFFF = some (.push 0xFFFFFFFF#32) ∧
  decodeTableWord 40 0x200000000 = some (.endLine 0#32) ∧
  decodeTableWord 40 0x300000005 = some (.rsv 5#32) ∧
  decodeTableWord 40 0x0FFFFFFFF = some (.clr 0xFFFFFFFF#32)

/-- The opcode map of 30_encoding.md R29 in both of its forms: by the `op` field, and by mask and match,
of which exactly one row fits every word (R31). -/
def Obligations.OpcodeFieldSelectsTheCommand : Prop :=
  (∀ w : CmdWord,
    (w.extractLsb' 32 2 = 0b00#2 → decode w = .clr (w.extractLsb' 0 32)) ∧
    (w.extractLsb' 32 2 = 0b01#2 → decode w = .push (w.extractLsb' 0 32)) ∧
    (w.extractLsb' 32 2 = 0b10#2 → decode w = .endLine (w.extractLsb' 0 32)) ∧
    (w.extractLsb' 32 2 = 0b11#2 → decode w = .rsv (w.extractLsb' 0 32))) ∧
  (∀ (w : CmdWord) (o : Opcode), w &&& 0x300000000#34 = rowMatch o ↔ (decode w).opcode = o) ∧
  rowMatch .clr = 0x000000000#34 ∧ rowMatch .push = 0x100000000#34 ∧
  rowMatch .endLine = 0x200000000#34 ∧ rowMatch .rsv = 0x300000000#34

/-- Decoding and encoding are inverse to each other over all commands and all numbers of up to 40 bits
(30_encoding.md R28, R31): no bit of an encoding is dropped, and a number beyond 34 bits is no command
word. -/
def Obligations.DecodeAndEncodeAgree : Prop :=
  (∀ i : Instr, decodeTableWord 40 (encode i).toNat = some i) ∧
  (∀ w : Nat, w < 2 ^ 34 → ∃ i, decodeTableWord 40 w = some i ∧ (encode i).toNat = w) ∧
  (∀ w : Nat, 2 ^ 34 ≤ w → w < 2 ^ 40 → decodeTableWord 40 w = none)

/-- What the assembler's statements assemble to (30_encoding.md R33, R34): the encodings of the four
commands, with every operand reduced modulo 2^32, and the expansion of LINE. -/
def Obligations.AssemblerWordsFollowTheirStatements : Prop :=
  assembleStmt .clr = some [0x000000000#34] ∧
  assembleStmt .endLine = some [0x200000000#34] ∧
  assembleStmt (.rsv none) = some [0x300000000#34] ∧
  (∀ v : Int, -(2 ^ 31) ≤ v → v ≤ 2 ^ 32 - 1 → ∃ w u : CmdWord,
    assembleStmt (.push (.decimal v)) = some [w] ∧ (w.toNat : Int) = 0x100000000 + v % 2 ^ 32 ∧
    assembleStmt (.rsv (some (.decimal v))) = some [u] ∧ (u.toNat : Int) = 0x300000000 + v % 2 ^ 32) ∧
  (∀ v : Int, (v < -(2 ^ 31) ∨ 2 ^ 32 - 1 < v) →
    assembleStmt (.push (.decimal v)) = none ∧ assembleStmt (.rsv (some (.decimal v))) = none) ∧
  (∀ v : Nat, ∃ w : CmdWord,
    assembleStmt (.push (.hex v)) = some [w] ∧ w.toNat = 0x100000000 + v % 2 ^ 32) ∧
  (∀ c : Char, ∃ w : CmdWord,
    assembleStmt (.push (.char c)) = some [w] ∧ w.toNat = 0x100000000 + c.toNat) ∧
  (∀ cs : List Char, ∃ ws : List CmdWord,
    assembleStmt (.lineString cs) = some (0x000000000#34 :: ws ++ [0x200000000#34]) ∧
    ws.map BitVec.toNat = cs.map fun c => 0x100000000 + c.toNat) ∧
  (∀ vs : List Nat, ∃ ws : List CmdWord,
    assembleStmt (.lineList (vs.map .hex)) = some (0x000000000#34 :: ws ++ [0x200000000#34]) ∧
    ws.map BitVec.toNat = vs.map fun v => 0x100000000 + v % 2 ^ 32)

/-- The assembler's text (30_encoding.md R33, R34): a character literal, a decimal number of any length,
the string of LINE, and a comment, each read as the statement it spells. The strings are those without
escapes; what a comment holds does not matter. -/
def Obligations.AssemblerReadsItsSpelling : Prop :=
  (∀ c : Char, c ≠ '\\' → c ≠ '\'' →
    assembleLine ['P', 'U', 'S', 'H', ' ', '\'', c, '\''] = .ok [encode (.push (codePointOfChar c))]) ∧
  (∀ ds : List Nat, ds ≠ [] → (∀ d ∈ ds, d < 10) → ds.foldl (fun a d => a * 10 + d) 0 < 2 ^ 32 →
    ∃ w : CmdWord, assembleLine (['P', 'U', 'S', 'H', ' '] ++ ds.map Nat.digitChar) = .ok [w] ∧
      w.toNat = 0x100000000 + ds.foldl (fun a d => a * 10 + d) 0) ∧
  (∀ cs : List Char, (∀ c ∈ cs, c ≠ '\\' ∧ c ≠ doubleQuote) →
    assembleLine (['L', 'I', 'N', 'E', ' ', doubleQuote] ++ cs ++ [doubleQuote]) =
      .ok ((lineCommands (cs.map codePointOfChar)).map encode)) ∧
  (∀ cs : List Char,
    assembleLine (['C', 'L', 'R', ';'] ++ cs) = .ok [0x000000000#34] ∧
    assembleLine (['E', 'N', 'D', ';'] ++ cs) = .ok [0x200000000#34] ∧
    assembleLine (['R', 'S', 'V', ';'] ++ cs) = .ok [0x300000000#34] ∧
    assembleLine (';' :: cs) = .ok [])

/-! ## One step -/

/-- An edge that accepts a command (30_encoding.md R28, 70_reset_and_hazards.md R58) runs the decoded
command, and nothing else, from the state in which that edge is over (41_line_commands.md R40). -/
def Obligations.StepRunsTheAcceptedCommand : Prop :=
  ∀ (s : State) (c : PortCycle) (rest : List PortCycle),
    s.inputs = c :: rest → c.rst = false → c.cmdValid = true → c.cmdReady = true →
    (s.held = .nothing ∨ s.held = .waiting (c.cmdOp ++ c.cmdCp)) →
    step s = exec (decode (c.cmdOp ++ c.cmdCp)) (s.withPorts rest .nothing)

/-- A command word placed by `withFetchWord` is what the next step runs, and it leaves the ports as they
were, with nothing waiting there (log entries 8 and 16). -/
def Obligations.FetchWordRunsAtTheNextStep : Prop :=
  ∀ (s : State) (nbits w : Nat) (i : Instr), decodeTableWord nbits w = some i →
    step (s.withFetchWord nbits w) = exec i (s.withPorts s.inputs .nothing)

/-- An edge with no reset and no acceptance changes no element of the block's state, whatever waited on
the port before: with no command presented the block keeps all its state (60_exceptions.md R54), and a
command that is not accepted has no effect (30_encoding.md R28). What waits on the port then is the
model's own record for duty 4 (70_reset_and_hazards.md R57; log entry 4). -/
def Obligations.EdgesThatAcceptNothingKeepTheState : Prop :=
  ∀ s : State,
    (s.inputs = [] → step s = .next s) ∧
    ∀ (c : PortCycle) (rest : List PortCycle), s.inputs = c :: rest → c.rst = false →
      (c.cmdValid = false → step s = .next (s.withPorts rest .nothing)) ∧
      (c.cmdValid = true → c.cmdReady = false →
        step s = .next (s.withPorts rest
          (if s.held = .nothing ∨ s.held = .waiting (c.cmdOp ++ c.cmdCp) then
            .waiting (c.cmdOp ++ c.cmdCp) else .unstable)))

/-- After the reset event every element of state and every read has the value of 10_state.md R18, and
the command presented at that edge, if any, is not accepted (70_reset_and_hazards.md R55). -/
def Obligations.ResetEdgeGivesTheResetValues : Prop :=
  ∀ (s : State) (c : PortCycle) (rest : List PortCycle), s.inputs = c :: rest → c.rst = true →
    ∃ t, step s = .next t ∧
      t.lstate = .idle ∧ t.errk = .none ∧ t.pcause = .none ∧ t.n = 0 ∧
      regRead t .status = 0x00000000#32 ∧ regRead t .count = 0x00000000#32 ∧
      regRead t .olen = 0x00000000#32 ∧ regRead t .cap = BitVec.ofNat 32 s.params.maxc ∧
      (∀ a, memRead t a = 0x00#8) ∧
      t.params = s.params ∧ t.inputs = rest

/-- The state the model starts from has the reset values and reads of 10_state.md R18 at every capacity,
and `State.reset` is such a state of a legal capacity (00_scope.md R4; the capacity itself is the model's
choice, log entry 1). -/
def Obligations.ResetStateHasTheResetValues : Prop :=
  (∀ p : Params,
    (State.resetWith p).lstate = .idle ∧ (State.resetWith p).errk = .none ∧
    (State.resetWith p).pcause = .none ∧ (State.resetWith p).n = 0 ∧
    regRead (.resetWith p) .status = 0x00000000#32 ∧ regRead (.resetWith p) .count = 0x00000000#32 ∧
    regRead (.resetWith p) .olen = 0x00000000#32 ∧
    regRead (.resetWith p) .cap = BitVec.ofNat 32 p.maxc ∧
    ∀ a, memRead (.resetWith p) a = 0x00#8) ∧
  ∃ p : Params, p.wellFormed = true ∧ State.reset = .resetWith p

/-- A step is refused exactly where a command would be accepted whose fields were not held stable while it
waited (93_implementation_defined.md U13, 70_reset_and_hazards.md R57 duty 4). So a stream in which that
never happens is never stopped, for any number of edges; a host that keeps the handshake gives such a
stream, and so does one that presents nothing (60_exceptions.md R54). -/
def Obligations.OnlyABrokenHandshakeStopsTheBlock : Prop :=
  (∀ (s : State) (r : Refusal), step s = .refused r ↔
    r = .handshakeBroken ∧ ∃ (c : PortCycle) (rest : List PortCycle),
      s.inputs = c :: rest ∧ c.rst = false ∧ c.cmdValid = true ∧ c.cmdReady = true ∧
      s.held ≠ .nothing ∧ s.held ≠ .waiting (c.cmdOp ++ c.cmdCp)) ∧
  (∀ (k : Nat) (s : State), acceptsSteadily s.held s.inputs = true →
    ∃ t : State, steps k s = .next t) ∧
  ∀ (held : Presented) (cs : List PortCycle),
    (keepsHandshake held cs = true → acceptsSteadily held cs = true) ∧
    ((∀ c ∈ cs, c.cmdValid = false) → acceptsSteadily held cs = true)

/-- Reads have no side effect (20_memory.md R22): the levels on the three read ports change nothing in
what a step does. -/
def Obligations.ReadPortsHaveNoSideEffect : Prop :=
  ∀ (s : State) (c : PortCycle) (rest : List PortCycle) (obAddr : Word) (regNum : BitVec 2)
    (xCp : CodePoint),
    step (s.withPorts (⟨c.rst, c.cmdValid, c.cmdReady, c.cmdOp, c.cmdCp, obAddr, regNum, xCp⟩ :: rest)
      s.held) = step (s.withPorts (c :: rest) s.held)

/-- A stream of edges without reset, on which every accepted command was held stable while it waited (as
it is by a host that keeps the handshake), amounts to the commands it gets accepted, in order, whatever
the waiting times (20_memory.md R26, 70_reset_and_hazards.md R58: no rule depends on the timing). Such a
stream may also drop a waiting command, against duty 4 of R57: that the dropped command is then forgotten
is the model's reading (log entry 4). One step for each edge, and `cmd_ready` as part of the edge, are the
model's choices (log entries 2 and 9). -/
def Obligations.PortTimingDoesNotMatter : Prop :=
  ∀ (cs rest : List PortCycle) (s : State), s.inputs = cs ++ rest → noReset cs = true →
    acceptsSteadily s.held cs = true →
    ∃ t, execAll (acceptedCommands cs) s = .next t ∧
      steps cs.length s = .next (t.withPorts rest (presentedAtEnd s.held cs))

/-! ## The commands -/

/-- CLR opens a new empty line in every state and hides all output; BUF is not written
(41_line_commands.md R41). -/
def Obligations.ClrOpensAnEmptyLine : Prop :=
  encode (.clr 0#32) = 0x000000000#34 ∧
  ∀ (cp : CodePoint) (s : State), ∃ t, exec (.clr cp) s = .next t ∧
    t.lstate = .openLine ∧ t.errk = .none ∧ t.pcause = .none ∧ t.n = 0 ∧
    sameCells s t ∧ sameElsewhere s t ∧
    regRead t .status = 0x00000001#32 ∧ regRead t .count = 0x00000000#32 ∧
    regRead t .olen = 0x00000000#32 ∧ ∀ a, memRead t a = 0x00#8

/-- PUSH in each line state (41_line_commands.md R42), with its frame: what it writes, and that it writes
nothing else. -/
def Obligations.PushFollowsTheLineState : Prop :=
  (∀ cp : CodePoint, (encode (.push cp)).toNat = 0x100000000 + cp.toNat) ∧
  ∀ (cp : CodePoint) (s : State), ∃ t, exec (.push cp) s = .next t ∧ sameElsewhere s t ∧
    (s.lstate = .openLine → valid cp = true → s.n ≠ s.params.maxc →
      t.n = s.n + 1 ∧ t.lstate = .openLine ∧ t.errk = s.errk ∧ t.pcause = s.pcause ∧
      (∀ j, j ≤ 6 → t.buf.read? (7 * s.n + j) = some (lane cp j) ∧ t.cell (7 * s.n + j) = lane cp j) ∧
      (∀ a, a < 7 * s.n ∨ 7 * s.n + 6 < a →
        t.buf.read? a = s.buf.read? a ∧ t.cell a = s.cell a)) ∧
    (s.lstate = .openLine → valid cp = false →
      t.lstate = .stop ∧ t.errk = .invalidChar ∧ t.pcause = s.pcause ∧ storesNothing s t) ∧
    (s.lstate = .openLine → valid cp = true → s.n = s.params.maxc →
      t.lstate = .stop ∧ t.errk = .capacity ∧ t.pcause = s.pcause ∧ storesNothing s t) ∧
    (s.lstate = .stop → t = s) ∧
    (s.lstate.lineOpen = false →
      t.lstate = s.lstate ∧ t.errk = s.errk ∧
      t.pcause = (if s.pcause = .none then .pushClosed else s.pcause) ∧ storesNothing s t) ∧
    (s.params.wellFormed = true → s.n < s.params.maxc → ∀ j, j ≤ 6 →
      7 * s.n + j ≤ 7 * s.params.maxc - 1 ∧ 7 * s.params.maxc - 1 < 2 ^ 32 ∧ s.n + 1 ≤ s.params.maxc)

/-- END in each line state (41_line_commands.md R43), with its frame and what the host reads after it. -/
def Obligations.EndCommitsOrDiscardsTheLine : Prop :=
  encode (.endLine 0#32) = 0x200000000#34 ∧
  (∀ s : State, ∃ t, execAll [.clr 0#32, .endLine 0#32] s = .next t ∧ t.lstate = .doneOk ∧ t.n = 0 ∧
    regRead t .olen = 0x00000000#32) ∧
  ∀ (cp : CodePoint) (s : State), ∃ t, exec (.endLine cp) s = .next t ∧
    t.errk = s.errk ∧ storesNothing s t ∧
    (s.lstate = .openLine → t.lstate = .doneOk ∧ t.pcause = s.pcause ∧
      regRead t .olen = BitVec.ofNat 32 (7 * s.n) ∧
      ∀ a : Word, (a.toNat < 7 * s.n → memRead t a = s.cell a.toNat) ∧
        (7 * s.n ≤ a.toNat → memRead t a = 0x00#8)) ∧
    (s.lstate = .stop → t.lstate = .doneErr ∧ t.pcause = s.pcause ∧
      regRead t .olen = 0x00000000#32 ∧ ∀ a, memRead t a = 0x00#8) ∧
    (s.lstate.lineOpen = false → t.lstate = s.lstate ∧
      t.pcause = (if s.pcause = .none then .endClosed else s.pcause))

/-- RSV is ignored and recorded in every line state; a line that is open stays open and a later END
still commits it (41_line_commands.md R44). -/
def Obligations.RsvOnlyRecordsTheViolation : Prop :=
  (∀ cp : CodePoint, (encode (.rsv cp)).toNat = 0x300000000 + cp.toNat) ∧
  ∀ (cp : CodePoint) (s : State), ∃ t, exec (.rsv cp) s = .next t ∧
    t.pcause = (if s.pcause = .none then .reservedOp else s.pcause) ∧
    t.lstate = s.lstate ∧ t.errk = s.errk ∧ storesNothing s t ∧
    (s.lstate = .idle → s.errk = .none → s.pcause = .none → regRead t .status = 0x00000060#32) ∧
    (s.lstate = .openLine → ∃ u v, exec (.endLine 0#32) t = .next u ∧ exec (.endLine 0#32) s = .next v ∧
      u.lstate = .doneOk ∧ ∀ a, memRead u a = memRead v a)

/-- Every accepted command completes in its step, in every state (41_line_commands.md R40: no command
blocks, traps or faults), and touches neither the parameter nor the ports; LSTATE moves as R40's table
says. -/
def Obligations.EveryCommandCompletesByTheTable : Prop :=
  ∀ (i : Instr) (s : State), ∃ t, exec i s = .next t ∧ sameElsewhere s t ∧
    (i.opcode = .clr → t.lstate = .openLine) ∧
    (i.opcode = .rsv → t.lstate = s.lstate) ∧
    (i.opcode = .push → t.lstate =
      (if s.lstate = .openLine ∧ (valid i.cp = false ∨ s.n = s.params.maxc) then .stop else s.lstate)) ∧
    (i.opcode = .endLine → t.lstate =
      (if s.lstate = .openLine then .doneOk else if s.lstate = .stop then .doneErr else s.lstate))

/-- CLR, END and the reserved opcode ignore the `cp` field: two words with the same opcode, not PUSH's,
do the same in every state (30_encoding.md R30). -/
def Obligations.IgnoredFieldHasNoEffect : Prop :=
  ∀ (w w' : CmdWord) (s : State), w.extractLsb' 32 2 = w'.extractLsb' 32 2 →
    w.extractLsb' 32 2 ≠ 0b01#2 → exec (decode w) s = exec (decode w') s

/-! ## Events -/

/-- `raise LineError` (60_exceptions.md R47): it latches the kind, stops the line and stores nothing; it is
all that the PUSH that raises it does, so that command writes no cell and leaves N alone; every later PUSH
of the line is ignored, and END discards the output. -/
def Obligations.LineErrorStopsTheLine : Prop :=
  ∀ (kind : ErrKind) (s : State), s.lstate = .openLine →
    let t := raiseLineError kind s
    t.errk = kind ∧ t.lstate = .stop ∧ t.pcause = s.pcause ∧ storesNothing s t ∧
    (∀ cp : CodePoint, valid cp = false →
      exec (.push cp) s = .next (raiseLineError .invalidChar s)) ∧
    (∀ cp : CodePoint, valid cp = true → s.n = s.params.maxc →
      exec (.push cp) s = .next (raiseLineError .capacity s)) ∧
    (∀ cps : List CodePoint, execAll (cps.map .push) t = .next t) ∧
    (∀ (cps : List CodePoint) (cp : CodePoint), ∃ u,
      execAll (cps.map .push ++ [.endLine cp]) t = .next u ∧
      u.lstate = .doneErr ∧ u.errk = kind ∧ regRead u .olen = 0x00000000#32 ∧
      ∀ a, memRead u a = 0x00#8)

/-- `raise ProtocolViolation` (60_exceptions.md R49): the first cause sticks and nothing else changes; it is
all that a violating PUSH, END or RSV does, so that command is otherwise ignored; and whatever commands come
after it, they end, PCAUSE aside, as if the violating command had never been sent. -/
def Obligations.FirstViolationSticksAndSteersNothing : Prop :=
  ∀ (cause : PCause) (s : State),
    (s.pcause = .none → (raiseProtocolViolation cause s).pcause = cause) ∧
    (s.pcause ≠ .none → (raiseProtocolViolation cause s).pcause = s.pcause) ∧
    samePcauseAside (raiseProtocolViolation cause s) s ∧
    (s.lstate.lineOpen = false → ∀ cp : CodePoint,
      exec (.push cp) s = .next (raiseProtocolViolation .pushClosed s) ∧
      exec (.endLine cp) s = .next (raiseProtocolViolation .endClosed s)) ∧
    (∀ cp : CodePoint, exec (.rsv cp) s = .next (raiseProtocolViolation .reservedOp s)) ∧
    ∀ is : List Instr, ∃ t u, execAll is (raiseProtocolViolation cause s) = .next t ∧
      execAll is s = .next u ∧ samePcauseAside t u

/-- One command has at most one event (60_exceptions.md R48): it never writes both an error kind and a
protocol cause, and an error kind that it raises is INVALID_CHAR before CAPACITY. -/
def Obligations.OneEventPerCommand : Prop :=
  ∀ (i : Instr) (s t : State), exec i s = .next t → i.opcode ≠ .clr →
    (t.errk = s.errk ∨ t.pcause = s.pcause) ∧
    (t.errk ≠ s.errk → i.opcode = .push ∧ s.lstate = .openLine ∧
      t.errk = (if valid i.cp then .capacity else .invalidChar)) ∧
    (t.pcause ≠ s.pcause → s.pcause = .none ∧
      (i.opcode = .rsv ∧ t.pcause = .reservedOp ∨
        s.lstate.lineOpen = false ∧ i.opcode = .push ∧ t.pcause = .pushClosed ∨
        s.lstate.lineOpen = false ∧ i.opcode = .endLine ∧ t.pcause = .endClosed))

/-- Only CLR and reset leave STOP and DONE_ERR (60_exceptions.md R51). -/
def Obligations.OnlyClrOrResetLeavesAFailedLine : Prop :=
  ∀ (s t : State), step s = .next t → s.lstate.failed = true → t.lstate.failed = false →
    ∃ (c : PortCycle) (rest : List PortCycle), s.inputs = c :: rest ∧
      (c.rst = true ∨ ∃ cp, acceptedAt c = some (.clr cp))

/-- Only PUSH writes BUF (10_state.md R17): a step that changes what was written to a cell is a reset, or
an accepted PUSH of a valid code point into an open line with room, and the cell is one of the seven at
`7*N .. 7*N + 6`. -/
def Obligations.OnlyAnAcceptedPushWritesTheBuffer : Prop :=
  ∀ (s t : State) (a : Nat), step s = .next t → t.buf.read? a ≠ s.buf.read? a →
    ∃ (c : PortCycle) (rest : List PortCycle), s.inputs = c :: rest ∧
      (c.rst = true ∨ ∃ cp, acceptedAt c = some (.push cp) ∧ s.lstate = .openLine ∧ valid cp = true ∧
        s.n ≠ s.params.maxc ∧ 7 * s.n ≤ a ∧ a ≤ 7 * s.n + 6)

/-- A host that keeps the order of commands causes no protocol violation (70_reset_and_hazards.md R57
duty 1, 60_exceptions.md R46). -/
def Obligations.OrderedHostCausesNoViolation : Prop :=
  ∀ (is : List Instr) (s : State), s.pcause = .none → ordered s.lstate.lineOpen is = true →
    ∃ t, execAll is s = .next t ∧ t.pcause = .none

/-! ## EXPAND -/

/-- Validity and its three equivalent readings (40_expander.md R35). -/
def Obligations.ValidityIsTheAsciiRange : Prop :=
  (∀ cp : CodePoint, valid cp = true ↔ cp.extractLsb' 7 25 = 0#25) ∧
  (∀ cp : CodePoint, valid cp = true ↔ cp.toNat ≤ 127) ∧
  (∀ cp : CodePoint, valid cp = true ↔ 0 ≤ cp.toInt ∧ cp.toInt ≤ 127) ∧
  (∀ cp : CodePoint, valid cp = true → cp.getLsbD 7 = false) ∧
  valid 128#32 = false ∧ valid 256#32 = false ∧ valid 0xFFFFFFFF#32 = false ∧
  valid 0x80000000#32 = false

/-- The lane mapping (40_expander.md R36): seven lanes, lane `j` carrying bit `6 - j` through the mask
`0x40 >> j`, SP `0x20` for 1 and TAB `0x09` for 0; an invalid code point has no block (R37). -/
def Obligations.LaneCarriesItsBit : Prop :=
  ∀ cp : CodePoint,
    (valid cp = false → expand cp = none) ∧
    (valid cp = true → ∃ blk, expand cp = some blk ∧ blk.length = 7 ∧
      ∀ j, j ≤ 6 → blk[j]? = some (lane cp j)) ∧
    (∀ j, j ≤ 6 → mask j = BitVec.ofNat 32 (2 ^ (6 - j)) ∧
      lane cp j = if cp.getLsbD (6 - j) then 0x20#8 else 0x09#8)

/-- The laws of EXPAND (40_expander.md R39): length, alphabet, bits with injectivity, and count. -/
def Obligations.ExpandObeysItsLaws : Prop :=
  (∀ cp blk, expand cp = some blk →
    blk.length = 7 ∧
    (∀ b ∈ blk, b = Config.SP ∨ b = Config.TAB) ∧
    (∀ j, j ≤ 6 → (cp.getLsbD (6 - j) = true ↔ blk[j]? = some Config.SP)) ∧
    blk.count Config.SP = ((List.range 7).filter fun k => cp.getLsbD k).length) ∧
  (∀ cp cp', valid cp = true → valid cp' = true → expand cp = expand cp' → cp = cp')

/-- The direct expander port (40_expander.md R38): `x_ok` is the validity, lane `j` stands in bits
`[8j+7:8j]` of `x_chars`, which is zero for an invalid code point. The port reads no state of the line
engine, for its outputs are those of the code point alone in every state, and it writes none, for the code
point that is present changes nothing in what a step does. -/
def Obligations.ExpanderPortPacksTheLanes : Prop :=
  ∀ (s : State) (c : PortCycle),
    (portOutputs s c).xOk = valid c.xCp ∧
    (valid c.xCp = false → (portOutputs s c).xChars = 0#56) ∧
    (valid c.xCp = true → ∀ j, j ≤ 6 → (portOutputs s c).xChars.extractLsb' (8 * j) 8 = lane c.xCp j) ∧
    (∀ (rest : List PortCycle) (x : CodePoint),
      step (s.withPorts
        (⟨c.rst, c.cmdValid, c.cmdReady, c.cmdOp, c.cmdCp, c.obAddr, c.regNum, x⟩ :: rest) s.held) =
      step (s.withPorts (c :: rest) s.held))

/-! ## What the host reads -/

/-- The gate of the buffer read port (20_memory.md R19): committed cells in DONE_OK below `7 * N`, `0x00`
at every other address and in every other state; what is shown is SP or TAB, so it is never mistaken
for the gate's `0x00`. -/
def Obligations.BufferShowsCommittedOutputOnly : Prop :=
  ∀ (s : State) (a : Word),
    (s.lstate = .doneOk → a.toNat < 7 * s.n → memRead s a = s.cell a.toNat) ∧
    (s.lstate = .doneOk → 7 * s.n ≤ a.toNat → memRead s a = 0x00#8) ∧
    (readWindow s = false → memRead s a = 0x00#8 ∧ regRead s .olen = 0x00000000#32) ∧
    (s.Inv → s.lstate = .doneOk → a.toNat < 7 * s.n →
      s.buf.read? a.toNat = some (memRead s a) ∧ (memRead s a = 0x20#8 ∨ memRead s a = 0x09#8))

/-- The four registers, field by field (10_state.md R15), with the codes of LSTATE, ERRK and PCAUSE
(R12, R13, R14): in every state with a legal capacity and a count within it no value is cut off, the
register port selects them by number, and the number that is present changes nothing in what a step
does. -/
def Obligations.RegistersShowTheState : Prop :=
  ∀ s : State, s.params.wellFormed = true → s.n ≤ s.params.maxc →
    (regRead s .status).extractLsb' 0 3 = (match s.lstate with
      | .idle => 0#3 | .openLine => 1#3 | .stop => 2#3 | .doneOk => 3#3 | .doneErr => 4#3) ∧
    (regRead s .status).extractLsb' 3 2 = (match s.errk with
      | .none => 0#2 | .invalidChar => 1#2 | .capacity => 2#2) ∧
    (regRead s .status).extractLsb' 5 2 = (match s.pcause with
      | .none => 0#2 | .pushClosed => 1#2 | .endClosed => 2#2 | .reservedOp => 3#2) ∧
    (regRead s .status).extractLsb' 7 25 = 0#25 ∧
    (regRead s .count).toNat = s.n ∧
    (regRead s .olen).toNat = (if s.lstate = .doneOk then 7 * s.n else 0) ∧
    (regRead s .cap).toNat = s.params.maxc ∧
    (∀ c : PortCycle,
      (c.regNum = 0#2 → (portOutputs s c).regRdata = regRead s .status) ∧
      (c.regNum = 1#2 → (portOutputs s c).regRdata = regRead s .count) ∧
      (c.regNum = 2#2 → (portOutputs s c).regRdata = regRead s .olen) ∧
      (c.regNum = 3#2 → (portOutputs s c).regRdata = regRead s .cap)) ∧
    (∀ (c : PortCycle) (rest : List PortCycle) (r : BitVec 2),
      step (s.withPorts
        (⟨c.rst, c.cmdValid, c.cmdReady, c.cmdOp, c.cmdCp, c.obAddr, r, c.xCp⟩ :: rest) s.held) =
      step (s.withPorts (c :: rest) s.held))

/-! ## Invariants -/

/-- The invariant holds right after reset, at every legal capacity (10_state.md R18). -/
def Obligations.InvariantHoldsAtReset : Prop :=
  (∀ p : Params, p.wellFormed = true → (State.resetWith p).Inv) ∧ State.reset.Inv

/-- Every step keeps the invariant (10_state.md R13, R16, R17): N stays within MAXC, ERRK is set exactly
in STOP and DONE_ERR, CAPACITY means a full line, BUF keeps its canonical form within OBYTES cells, holds
lane values only, and has every cell below `7 * N` written. -/
def Obligations.StepKeepsTheInvariant : Prop :=
  ∀ s t : State, s.Inv → step s = .next t → t.Inv

/-- What a line has accepted (10_state.md R16, R17; 60_exceptions.md R46): after CLR and any commands but
CLR, the first N code points pushed are valid and their lanes stand in the cells below `7 * N`; with
INVALID_CHAR the code point pushed next is the first offending one, and with CAPACITY a valid one came
when the line was full. -/
def Obligations.BufferHoldsThePushedLanes : Prop :=
  ∀ (cp : CodePoint) (is : List Instr) (s : State), withinOneLine is = true →
    ∃ t, execAll (.clr cp :: is) s = .next t ∧
      (∀ i, i < t.n → ∃ c, (pushedCodePoints is)[i]? = some c ∧ valid c = true ∧
        ∀ j, j ≤ 6 → t.buf.read? (7 * i + j) = some (lane c j)) ∧
      (t.errk = .invalidChar → ∃ c, (pushedCodePoints is)[t.n]? = some c ∧ valid c = false) ∧
      (t.errk = .capacity → t.n = s.params.maxc ∧
        ∃ c, (pushedCodePoints is)[t.n]? = some c ∧ valid c = true)

/-! ## Whole lines -/

/-- The line result (41_line_commands.md R45), from any state of a legal capacity: success with exactly
the lanes of the line, INVALID_CHAR at the first offending index, or CAPACITY. -/
def Obligations.LineResultIsAllOrNothing : Prop :=
  ∀ (cps : List CodePoint) (s : State), s.params.wellFormed = true →
    ∃ t, execAll (lineCommands cps) s = .next t ∧ t.pcause = .none ∧
      ((∀ c ∈ cps, valid c = true) → cps.length ≤ s.params.maxc →
        t.lstate = .doneOk ∧ t.errk = .none ∧ t.n = cps.length ∧
        (regRead t .olen).toNat = 7 * cps.length ∧
        (∀ (i : Nat) (c : CodePoint) (j : Nat), cps[i]? = some c → j ≤ 6 →
          memRead t (BitVec.ofNat 32 (7 * i + j)) = lane c j) ∧
        (∀ a : Word, 7 * cps.length ≤ a.toNat → memRead t a = 0x00#8) ∧
        readOutput t = cps.flatMap lanes) ∧
      (∀ (k : Nat) (c : CodePoint), cps[k]? = some c → valid c = false →
        (∀ d ∈ cps.take k, valid d = true) → k ≤ s.params.maxc →
        t.lstate = .doneErr ∧ t.errk = .invalidChar ∧ t.n = k ∧ regRead t .olen = 0x00000000#32 ∧
        ∀ a, memRead t a = 0x00#8) ∧
      (s.params.maxc < cps.length → (∀ d ∈ cps.take (s.params.maxc + 1), valid d = true) →
        t.lstate = .doneErr ∧ t.errk = .capacity ∧ t.n = s.params.maxc ∧
        regRead t .olen = 0x00000000#32 ∧ ∀ a, memRead t a = 0x00#8)

/-- Nothing from before a CLR can be read after it (41_line_commands.md R45, the determinism law;
10_state.md R17): from any two states of one capacity, the same commands beginning with CLR leave states
that no read tells apart. -/
def Obligations.NoReadShowsWhatCameBeforeClr : Prop :=
  ∀ (cp : CodePoint) (is : List Instr) (s s' : State), s.params = s'.params →
    ∃ t t', execAll (.clr cp :: is) s = .next t ∧ execAll (.clr cp :: is) s' = .next t' ∧
      sameReads t t'

/-- The output of a concatenation is the concatenation of the outputs (41_line_commands.md R45), for
valid lines that fit together, whatever states the three lines start from. -/
def Obligations.ConcatenatedLinesConcatenateTheirOutput : Prop :=
  ∀ (xs ys : List CodePoint) (s u v : State), s.params.wellFormed = true →
    u.params = s.params → v.params = s.params → (∀ c ∈ xs ++ ys, valid c = true) →
    (xs ++ ys).length ≤ s.params.maxc →
    ∃ s' u' v', execAll (lineCommands (xs ++ ys)) s = .next s' ∧ execAll (lineCommands xs) u = .next u' ∧
      execAll (lineCommands ys) v = .next v' ∧ readOutput s' = readOutput u' ++ readOutput v'

/-- A line of `n` characters takes `n + 2` commands and closes when they are accepted, after as many edges
as the waiting takes (70_reset_and_hazards.md R59, R58); it closes without error exactly when every code
point is valid and the line fits (41_line_commands.md R45). R57 gives the result only to a host that meets
its duties; that it is the same where a waiting command was dropped, against duty 4, is the model's
reading (log entry 4), and one step for each edge is its choice (log entry 2). -/
def Obligations.LineClosesOnceItsCommandsAreAccepted : Prop :=
  ∀ (cps : List CodePoint) (cs rest : List PortCycle) (s : State),
    s.inputs = cs ++ rest → noReset cs = true → acceptsSteadily s.held cs = true →
    acceptedCommands cs = lineCommands cps →
    (acceptedCommands cs).length = cps.length + 2 ∧
    ∃ t : State, steps cs.length s = .next t ∧ t.inputs = rest ∧
      (t.lstate = .doneOk ∨ t.lstate = .doneErr) ∧
      (t.lstate = .doneOk ↔ (∀ c ∈ cps, valid c = true) ∧ cps.length ≤ s.params.maxc)

/-- The contract of the entry point (60_exceptions.md R53): a missing argument sends nothing, success
writes exactly the bytes of the line, an invalid character writes the source's message with status 1, and
CAPACITY is left to the open policy (log entry 15). -/
def Obligations.EntryPointKeepsItsContract : Prop :=
  ∀ s : State, s.params.wellFormed = true →
    hostRun none s = .next (s, ⟨[], [], 0⟩) ∧
    ∀ cs : List Char, ∃ t r, hostRun (some cs) s = .next (t, r) ∧
      ((∀ c ∈ cs, c.toNat ≤ 127) → cs.length ≤ s.params.maxc →
        t.lstate = .doneOk ∧ r = ⟨cs.flatMap fun c => lanes (codePointOfChar c), [], 0⟩) ∧
      (∀ (k : Nat) (c : Char), cs[k]? = some c → 127 < c.toNat →
        (∀ d ∈ cs.take k, d.toNat ≤ 127) → k ≤ s.params.maxc →
        t.lstate = .doneErr ∧ t.errk = .invalidChar ∧
        r = ⟨[], invalidCharMessage, 1⟩) ∧
      (s.params.maxc < cs.length → (∀ d ∈ cs.take (s.params.maxc + 1), d.toNat ≤ 127) →
        t.lstate = .doneErr ∧ t.errk = .capacity ∧ r = Config.hostCapacityPolicy cs)
end

