-- ==== Sys2Proof/Laws/Decode.lean ====
section
/-! SUPPORT. The two fields of a command word and the opcode map (30_encoding.md R28, R29). -/

namespace Sys2Proof

/-- The opcode field of a word put together from its two fields. -/
@[simp] theorem opField_append (o : BitVec 2) (cp : CodePoint) :
    opField (o ++ cp : BitVec (2 + 32)) = o := by
  ext i hi
  simp only [opField, BitVec.getElem_extractLsb', BitVec.getLsbD_append]
  simp [BitVec.getLsbD_eq_getElem hi]

/-- The operand field of a word put together from its two fields. -/
@[simp] theorem cpField_append (o : BitVec 2) (cp : CodePoint) :
    cpField (o ++ cp : BitVec (2 + 32)) = cp := by
  ext i hi
  simp only [cpField, BitVec.getElem_extractLsb', BitVec.getLsbD_append]
  simp [hi]

/-- A word is its two fields. -/
theorem opField_append_cpField (w : CmdWord) : (opField w ++ cpField w : BitVec (2 + 32)) = w := by
  show w.extractLsb' 32 2 ++ w.extractLsb' 0 32 = w
  ext i hi
  simp only [BitVec.getElem_append, BitVec.getElem_extractLsb']
  split
  · simp [BitVec.getLsbD_eq_getElem hi]
  · have : 32 + (i - 32) = i := by omega
    simp [this, BitVec.getLsbD_eq_getElem hi]

/-- The opcode map reads what the encoder writes. -/
@[simp] theorem opcodeOf_opcodeBits (o : Opcode) : opcodeOf (opcodeBits o) = o := by
  cases o <;> rfl

/-- The encoder writes what the opcode map reads. -/
@[simp] theorem opcodeBits_opcodeOf (b : BitVec 2) : opcodeBits (opcodeOf b) = b := by
  revert b
  decide

@[simp] theorem Instr.ofFields_opcode (o : Opcode) (cp : CodePoint) :
    (Instr.ofFields o cp).opcode = o := by
  cases o <;> rfl

@[simp] theorem Instr.ofFields_cp (o : Opcode) (cp : CodePoint) : (Instr.ofFields o cp).cp = cp := by
  cases o <;> rfl

@[simp] theorem Instr.ofFields_self (i : Instr) : Instr.ofFields i.opcode i.cp = i := by
  cases i <;> rfl

/-- The number of a command word: the opcode above the operand. -/
theorem encode_toNat (i : Instr) : (encode i).toNat = (opcodeBits i.opcode).toNat * 2 ^ 32 + i.cp.toNat := by
  unfold encode
  rw [BitVec.toNat_append, Nat.shiftLeft_eq, Nat.mul_comm, Nat.two_pow_add_eq_or_of_lt i.cp.isLt]

end Sys2Proof
end

