-- ==== Sys2Proof/Laws/Expand.lean ====
section
/-! SUPPORT. The laws of EXPAND that the other files cite (40_expander.md R35 to R39). -/

namespace Sys2Proof.Machine

/-- Validity, read on the unsigned value (40_expander.md R35). -/
theorem valid_iff_toNat (cp : CodePoint) : valid cp = true ↔ cp.toNat ≤ 127 := by
  have h := cp.isLt
  simp only [valid, beq_iff_eq, ← BitVec.toNat_inj, BitVec.extractLsb'_toNat, Nat.shiftRight_eq_div_pow]
  norm_num
  omega

/-- The mask of lane `j` has the one bit `6 - j` (40_expander.md R36). -/
theorem mask_eq_twoPow {j : Nat} (h : j ≤ 6) : mask j = BitVec.twoPow 32 (6 - j) := by
  interval_cases j <;> decide

/-- Lane `j` shows bit `6 - j` (40_expander.md R36). -/
theorem lane_eq_bit (cp : CodePoint) {j : Nat} (h : j ≤ 6) :
    lane cp j = if cp.getLsbD (6 - j) then Config.SP else Config.TAB := by
  have hw : 6 - j < 32 := by omega
  rw [lane, mask_eq_twoPow h, BitVec.and_twoPow]
  cases cp.getLsbD (6 - j) with
  | false => simp
  | true =>
    have : BitVec.twoPow 32 (6 - j) ≠ 0#32 := by
      interval_cases j <;> decide
    simp [this]

/-- A lane is SP or TAB. -/
theorem lane_sp_or_tab (cp : CodePoint) (j : Nat) : lane cp j = Config.SP ∨ lane cp j = Config.TAB := by
  unfold lane
  split
  · exact .inr rfl
  · exact .inl rfl

@[simp] theorem lanes_length (cp : CodePoint) : (lanes cp).length = 7 := rfl

/-- Element `j` of a block is lane `j`. -/
theorem lanes_getElem? (cp : CodePoint) {j : Nat} (h : j ≤ 6) : (lanes cp)[j]? = some (lane cp j) := by
  interval_cases j <;> rfl

/-- Every byte of a block is a lane. -/
theorem mem_lanes {cp : CodePoint} {b : Byte} (h : b ∈ lanes cp) : ∃ j, j ≤ 6 ∧ b = lane cp j := by
  simp only [lanes, List.mem_cons, List.not_mem_nil, or_false] at h
  rcases h with h | h | h | h | h | h | h
  exacts [⟨0, by omega, h⟩, ⟨1, by omega, h⟩, ⟨2, by omega, h⟩, ⟨3, by omega, h⟩, ⟨4, by omega, h⟩,
    ⟨5, by omega, h⟩, ⟨6, by omega, h⟩]

@[simp] theorem expand_of_valid {cp : CodePoint} (h : valid cp = true) : expand cp = some (lanes cp) := by
  simp [expand, h]

@[simp] theorem expand_of_invalid {cp : CodePoint} (h : valid cp = false) : expand cp = none := by
  simp [expand, h]

/-- EXPAND gives a block exactly for a valid code point, and then its lanes. -/
theorem expand_eq_some_iff {cp : CodePoint} {blk : List Byte} :
    expand cp = some blk ↔ valid cp = true ∧ blk = lanes cp := by
  cases h : valid cp <;> simp [h, eq_comm]

end Sys2Proof.Machine
end

