-- ==== Sys2Proof/Laws/Memory.lean ====
section
/-! SUPPORT. The laws of the buffer's cells: a read after a write, that a write leaves every other cell
alone, and that writes keep the canonical form. -/

namespace Sys2Proof.Machine

@[simp] theorem Memory.read?_nil (a : Nat) : Memory.read? [] a = none := rfl

@[simp] theorem Memory.wf_nil : Memory.wf [] := List.Pairwise.nil

/-- A cell reads back what was written to it. -/
@[simp] theorem Memory.read?_write_same (m : Memory) (a : Nat) (v : Byte) :
    (m.write a v).read? a = some v := by
  induction m with
  | nil => simp [Memory.write, Memory.read?]
  | cons c m ih =>
    obtain ⟨b, w⟩ := c
    unfold Memory.write
    split
    · simp [Memory.read?]
    · split
      · simp [Memory.read?]
      · simp_all [Memory.read?]

/-- A write leaves every other cell alone. -/
theorem Memory.read?_write_other {a b : Nat} (hab : a ≠ b) (m : Memory) (v : Byte) :
    (m.write b v).read? a = m.read? a := by
  induction m with
  | nil => simp [Memory.write, Memory.read?, hab]
  | cons c m ih =>
    obtain ⟨d, w⟩ := c
    unfold Memory.write
    split
    · simp [Memory.read?, hab]
    · split
      · simp_all [Memory.read?]
      · simp [Memory.read?, ih]

/-- The addresses of a written memory: the old ones and the one written. -/
theorem Memory.mem_keys_write {m : Memory} {a x : Nat} {v : Byte}
    (h : x ∈ (m.write a v).map Prod.fst) : x = a ∨ x ∈ m.map Prod.fst := by
  induction m with
  | nil => simpa [Memory.write] using h
  | cons c m ih =>
    obtain ⟨b, w⟩ := c
    unfold Memory.write at h
    split at h
    · simpa using h
    · split at h
      · simp only [List.map_cons, List.mem_cons] at h ⊢
        tauto
      · simp only [List.map_cons, List.mem_cons] at h ⊢
        rcases h with h | h
        · exact .inr (.inl h)
        · rcases ih h with h | h
          · exact .inl h
          · exact .inr (.inr h)

/-- A write keeps the canonical form. -/
theorem Memory.wf_write {m : Memory} (h : m.wf) (a : Nat) (v : Byte) : (m.write a v).wf := by
  induction m with
  | nil => simp [Memory.write, Memory.wf]
  | cons c m ih =>
    obtain ⟨b, w⟩ := c
    simp only [Memory.wf, List.map_cons, List.pairwise_cons] at h
    obtain ⟨hb, hm⟩ := h
    unfold Memory.write
    split
    · rename_i hab
      simp only [Memory.wf, List.map_cons, List.pairwise_cons, List.mem_cons]
      refine ⟨?_, hb, hm⟩
      rintro x (rfl | hx)
      · exact hab
      · exact hab.trans (hb x hx)
    · split
      · subst_vars
        simpa [Memory.wf] using ⟨by simpa using hb, hm⟩
      · simp only [Memory.wf, List.map_cons, List.pairwise_cons]
        refine ⟨fun x hx => ?_, ih hm⟩
        rcases Memory.mem_keys_write hx with rfl | hx
        · omega
        · exact hb x hx

/-- A sequence of writes keeps the canonical form. -/
theorem Memory.wf_writeSeq {m : Memory} (h : m.wf) (a : Nat) (vs : List Byte) :
    (m.writeSeq a vs).wf := by
  induction vs generalizing m a with
  | nil => exact h
  | cons v vs ih => exact ih (Memory.wf_write h a v) (a + 1)

/-- A sequence of writes leaves every cell outside it alone. -/
theorem Memory.read?_writeSeq_outside {m : Memory} {a b : Nat} {vs : List Byte}
    (h : b < a ∨ a + vs.length ≤ b) : (m.writeSeq a vs).read? b = m.read? b := by
  induction vs generalizing m a with
  | nil => rfl
  | cons v vs ih =>
    simp only [List.length_cons] at h
    rw [Memory.writeSeq, ih (by omega), Memory.read?_write_other (by omega)]

/-- Cell `a + k` reads back value `k` of the sequence written from `a` on. -/
theorem Memory.read?_writeSeq_inside {m : Memory} {a k : Nat} {vs : List Byte} (h : k < vs.length) :
    (m.writeSeq a vs).read? (a + k) = vs[k]? := by
  induction vs generalizing m a k with
  | nil => simp at h
  | cons v vs ih =>
    rw [Memory.writeSeq]
    cases k with
    | zero =>
      rw [Nat.add_zero, Memory.read?_writeSeq_outside (by omega)]
      simp
    | succ k =>
      rw [show a + (k + 1) = a + 1 + k by omega, ih (by simpa using h)]
      simp

end Sys2Proof.Machine
end

