-- ==== Sys2Proof/Laws/State.lean ====
section
/-! SUPPORT. What each update of State and each named operation leaves in each field: the simp set that
keeps later proofs from unfolding a record update. -/

namespace Sys2Proof.Machine

variable (s : State)

/-! ## withLState -/

@[simp] theorem State.withLState_lstate (v : LState) : (s.withLState v).lstate = v := rfl

@[simp] theorem State.withLState_errk (v : LState) : (s.withLState v).errk = s.errk := rfl

@[simp] theorem State.withLState_pcause (v : LState) : (s.withLState v).pcause = s.pcause := rfl

@[simp] theorem State.withLState_n (v : LState) : (s.withLState v).n = s.n := rfl

@[simp] theorem State.withLState_buf (v : LState) : (s.withLState v).buf = s.buf := rfl

@[simp] theorem State.withLState_params (v : LState) : (s.withLState v).params = s.params := rfl

@[simp] theorem State.withLState_inputs (v : LState) : (s.withLState v).inputs = s.inputs := rfl

@[simp] theorem State.withLState_held (v : LState) : (s.withLState v).held = s.held := rfl

@[simp] theorem State.withLState_draw (v : LState) : (s.withLState v).draw = s.draw := rfl

/-! ## withErrk -/

@[simp] theorem State.withErrk_lstate (v : ErrKind) : (s.withErrk v).lstate = s.lstate := rfl

@[simp] theorem State.withErrk_errk (v : ErrKind) : (s.withErrk v).errk = v := rfl

@[simp] theorem State.withErrk_pcause (v : ErrKind) : (s.withErrk v).pcause = s.pcause := rfl

@[simp] theorem State.withErrk_n (v : ErrKind) : (s.withErrk v).n = s.n := rfl

@[simp] theorem State.withErrk_buf (v : ErrKind) : (s.withErrk v).buf = s.buf := rfl

@[simp] theorem State.withErrk_params (v : ErrKind) : (s.withErrk v).params = s.params := rfl

@[simp] theorem State.withErrk_inputs (v : ErrKind) : (s.withErrk v).inputs = s.inputs := rfl

@[simp] theorem State.withErrk_held (v : ErrKind) : (s.withErrk v).held = s.held := rfl

@[simp] theorem State.withErrk_draw (v : ErrKind) : (s.withErrk v).draw = s.draw := rfl

/-! ## withPcause -/

@[simp] theorem State.withPcause_lstate (v : PCause) : (s.withPcause v).lstate = s.lstate := rfl

@[simp] theorem State.withPcause_errk (v : PCause) : (s.withPcause v).errk = s.errk := rfl

@[simp] theorem State.withPcause_pcause (v : PCause) : (s.withPcause v).pcause = v := rfl

@[simp] theorem State.withPcause_n (v : PCause) : (s.withPcause v).n = s.n := rfl

@[simp] theorem State.withPcause_buf (v : PCause) : (s.withPcause v).buf = s.buf := rfl

@[simp] theorem State.withPcause_params (v : PCause) : (s.withPcause v).params = s.params := rfl

@[simp] theorem State.withPcause_inputs (v : PCause) : (s.withPcause v).inputs = s.inputs := rfl

@[simp] theorem State.withPcause_held (v : PCause) : (s.withPcause v).held = s.held := rfl

@[simp] theorem State.withPcause_draw (v : PCause) : (s.withPcause v).draw = s.draw := rfl

/-! ## withCount -/

@[simp] theorem State.withCount_lstate (v : Nat) : (s.withCount v).lstate = s.lstate := rfl

@[simp] theorem State.withCount_errk (v : Nat) : (s.withCount v).errk = s.errk := rfl

@[simp] theorem State.withCount_pcause (v : Nat) : (s.withCount v).pcause = s.pcause := rfl

@[simp] theorem State.withCount_n (v : Nat) : (s.withCount v).n = v := rfl

@[simp] theorem State.withCount_buf (v : Nat) : (s.withCount v).buf = s.buf := rfl

@[simp] theorem State.withCount_params (v : Nat) : (s.withCount v).params = s.params := rfl

@[simp] theorem State.withCount_inputs (v : Nat) : (s.withCount v).inputs = s.inputs := rfl

@[simp] theorem State.withCount_held (v : Nat) : (s.withCount v).held = s.held := rfl

@[simp] theorem State.withCount_draw (v : Nat) : (s.withCount v).draw = s.draw := rfl

/-! ## withBuf -/

@[simp] theorem State.withBuf_lstate (v : Memory) : (s.withBuf v).lstate = s.lstate := rfl

@[simp] theorem State.withBuf_errk (v : Memory) : (s.withBuf v).errk = s.errk := rfl

@[simp] theorem State.withBuf_pcause (v : Memory) : (s.withBuf v).pcause = s.pcause := rfl

@[simp] theorem State.withBuf_n (v : Memory) : (s.withBuf v).n = s.n := rfl

@[simp] theorem State.withBuf_buf (v : Memory) : (s.withBuf v).buf = v := rfl

@[simp] theorem State.withBuf_params (v : Memory) : (s.withBuf v).params = s.params := rfl

@[simp] theorem State.withBuf_inputs (v : Memory) : (s.withBuf v).inputs = s.inputs := rfl

@[simp] theorem State.withBuf_held (v : Memory) : (s.withBuf v).held = s.held := rfl

@[simp] theorem State.withBuf_draw (v : Memory) : (s.withBuf v).draw = s.draw := rfl

/-! ## withPorts -/

@[simp] theorem State.withPorts_lstate (rest : List PortCycle) (h : Presented) : (s.withPorts rest h).lstate = s.lstate := rfl

@[simp] theorem State.withPorts_errk (rest : List PortCycle) (h : Presented) : (s.withPorts rest h).errk = s.errk := rfl

@[simp] theorem State.withPorts_pcause (rest : List PortCycle) (h : Presented) : (s.withPorts rest h).pcause = s.pcause := rfl

@[simp] theorem State.withPorts_n (rest : List PortCycle) (h : Presented) : (s.withPorts rest h).n = s.n := rfl

@[simp] theorem State.withPorts_buf (rest : List PortCycle) (h : Presented) : (s.withPorts rest h).buf = s.buf := rfl

@[simp] theorem State.withPorts_params (rest : List PortCycle) (h : Presented) : (s.withPorts rest h).params = s.params := rfl

@[simp] theorem State.withPorts_inputs (rest : List PortCycle) (h : Presented) : (s.withPorts rest h).inputs = rest := rfl

@[simp] theorem State.withPorts_held (rest : List PortCycle) (h : Presented) : (s.withPorts rest h).held = h := rfl

@[simp] theorem State.withPorts_draw (rest : List PortCycle) (h : Presented) : (s.withPorts rest h).draw = s.draw := rfl

/-! ## redraw -/

@[simp] theorem State.redraw_lstate : (s.redraw).lstate = s.lstate := rfl

@[simp] theorem State.redraw_errk : (s.redraw).errk = s.errk := rfl

@[simp] theorem State.redraw_pcause : (s.redraw).pcause = s.pcause := rfl

@[simp] theorem State.redraw_n : (s.redraw).n = s.n := rfl

@[simp] theorem State.redraw_buf : (s.redraw).buf = s.buf := rfl

@[simp] theorem State.redraw_params : (s.redraw).params = s.params := rfl

@[simp] theorem State.redraw_inputs : (s.redraw).inputs = s.inputs := rfl

@[simp] theorem State.redraw_held : (s.redraw).held = s.held := rfl

@[simp] theorem State.redraw_draw : (s.redraw).draw = s.draw + 1 := rfl

/-! ## raiseLineError -/

@[simp] theorem raiseLineError_lstate (k : ErrKind) : (raiseLineError k s).lstate = .stop := rfl

@[simp] theorem raiseLineError_errk (k : ErrKind) : (raiseLineError k s).errk = k := rfl

@[simp] theorem raiseLineError_pcause (k : ErrKind) : (raiseLineError k s).pcause = s.pcause := rfl

@[simp] theorem raiseLineError_n (k : ErrKind) : (raiseLineError k s).n = s.n := rfl

@[simp] theorem raiseLineError_buf (k : ErrKind) : (raiseLineError k s).buf = s.buf := rfl

@[simp] theorem raiseLineError_params (k : ErrKind) : (raiseLineError k s).params = s.params := rfl

@[simp] theorem raiseLineError_inputs (k : ErrKind) : (raiseLineError k s).inputs = s.inputs := rfl

@[simp] theorem raiseLineError_held (k : ErrKind) : (raiseLineError k s).held = s.held := rfl

@[simp] theorem raiseLineError_draw (k : ErrKind) : (raiseLineError k s).draw = s.draw := rfl

/-! ## openEmptyLine -/

@[simp] theorem openEmptyLine_lstate : (openEmptyLine s).lstate = .openLine := rfl

@[simp] theorem openEmptyLine_errk : (openEmptyLine s).errk = .none := rfl

@[simp] theorem openEmptyLine_pcause : (openEmptyLine s).pcause = .none := rfl

@[simp] theorem openEmptyLine_n : (openEmptyLine s).n = 0 := rfl

@[simp] theorem openEmptyLine_buf : (openEmptyLine s).buf = s.buf := rfl

@[simp] theorem openEmptyLine_params : (openEmptyLine s).params = s.params := rfl

@[simp] theorem openEmptyLine_inputs : (openEmptyLine s).inputs = s.inputs := rfl

@[simp] theorem openEmptyLine_held : (openEmptyLine s).held = s.held := rfl

@[simp] theorem openEmptyLine_draw : (openEmptyLine s).draw = s.draw := rfl

/-! ## acceptBlock -/

@[simp] theorem acceptBlock_lstate (blk : List Byte) : (acceptBlock blk s).lstate = s.lstate := rfl

@[simp] theorem acceptBlock_errk (blk : List Byte) : (acceptBlock blk s).errk = s.errk := rfl

@[simp] theorem acceptBlock_pcause (blk : List Byte) : (acceptBlock blk s).pcause = s.pcause := rfl

@[simp] theorem acceptBlock_n (blk : List Byte) : (acceptBlock blk s).n = s.n + 1 := rfl

@[simp] theorem acceptBlock_buf (blk : List Byte) : (acceptBlock blk s).buf = s.buf.writeSeq (7 * s.n) blk := rfl

@[simp] theorem acceptBlock_params (blk : List Byte) : (acceptBlock blk s).params = s.params := rfl

@[simp] theorem acceptBlock_inputs (blk : List Byte) : (acceptBlock blk s).inputs = s.inputs := rfl

@[simp] theorem acceptBlock_held (blk : List Byte) : (acceptBlock blk s).held = s.held := rfl

@[simp] theorem acceptBlock_draw (blk : List Byte) : (acceptBlock blk s).draw = s.draw := rfl

/-! ## takeReset -/

@[simp] theorem takeReset_lstate : (takeReset s).lstate = .idle := rfl

@[simp] theorem takeReset_errk : (takeReset s).errk = .none := rfl

@[simp] theorem takeReset_pcause : (takeReset s).pcause = .none := rfl

@[simp] theorem takeReset_n : (takeReset s).n = 0 := rfl

@[simp] theorem takeReset_buf : (takeReset s).buf = [] := rfl

@[simp] theorem takeReset_params : (takeReset s).params = s.params := rfl

@[simp] theorem takeReset_inputs : (takeReset s).inputs = s.inputs := rfl

@[simp] theorem takeReset_held : (takeReset s).held = s.held := rfl

@[simp] theorem takeReset_draw : (takeReset s).draw = s.draw + 1 := rfl

/-! ## raiseProtocolViolation -/

@[simp] theorem raiseProtocolViolation_lstate (c : PCause) : (raiseProtocolViolation c s).lstate = s.lstate := by
  unfold raiseProtocolViolation
  split <;> rfl

@[simp] theorem raiseProtocolViolation_errk (c : PCause) : (raiseProtocolViolation c s).errk = s.errk := by
  unfold raiseProtocolViolation
  split <;> rfl

theorem raiseProtocolViolation_pcause (c : PCause) :
    (raiseProtocolViolation c s).pcause = if s.pcause = .none then c else s.pcause := by
  unfold raiseProtocolViolation
  split <;> simp_all

@[simp] theorem raiseProtocolViolation_n (c : PCause) : (raiseProtocolViolation c s).n = s.n := by
  unfold raiseProtocolViolation
  split <;> rfl

@[simp] theorem raiseProtocolViolation_buf (c : PCause) : (raiseProtocolViolation c s).buf = s.buf := by
  unfold raiseProtocolViolation
  split <;> rfl

@[simp] theorem raiseProtocolViolation_params (c : PCause) : (raiseProtocolViolation c s).params = s.params := by
  unfold raiseProtocolViolation
  split <;> rfl

@[simp] theorem raiseProtocolViolation_inputs (c : PCause) : (raiseProtocolViolation c s).inputs = s.inputs := by
  unfold raiseProtocolViolation
  split <;> rfl

@[simp] theorem raiseProtocolViolation_held (c : PCause) : (raiseProtocolViolation c s).held = s.held := by
  unfold raiseProtocolViolation
  split <;> rfl

@[simp] theorem raiseProtocolViolation_draw (c : PCause) : (raiseProtocolViolation c s).draw = s.draw := by
  unfold raiseProtocolViolation
  split <;> rfl

/-! ## Cells -/

/-- BUF's cells depend on the buffer and the draw alone. -/
theorem State.cell_congr {s t : State} (hb : t.buf = s.buf) (hd : t.draw = s.draw) (a : Nat) :
    t.cell a = s.cell a := by
  simp [State.cell, hb, hd]

/-- A cell that a PUSH wrote holds what it wrote. -/
theorem State.cell_of_read {s : State} {a : Nat} {v : Byte} (h : s.buf.read? a = some v) :
    s.cell a = v := by
  simp [State.cell, h]

/-! ## PCAUSE set aside -/

@[simp] theorem State.withPcause_withPcause (v w : PCause) :
    (s.withPcause v).withPcause w = s.withPcause w := rfl

/-- A protocol violation is gone once PCAUSE is set aside. -/
@[simp] theorem raiseProtocolViolation_withPcause (c v : PCause) :
    (raiseProtocolViolation c s).withPcause v = s.withPcause v := by
  unfold raiseProtocolViolation
  split <;> rfl

end Sys2Proof.Machine
end

