-- ==== Sys2Proof/Laws/WellFormed.lean ====
section
/-! SUPPORT. What the checks of WellFormed.lean say, in arithmetic. -/

namespace Sys2Proof

/-- The bounds of `MAXC` (00_scope.md R4). -/
theorem Params.wellFormed_iff {p : Params} :
    p.wellFormed = true ↔ 1 ≤ p.maxc ∧ p.maxc ≤ 613566756 := by
  rw [Params.wellFormed, Bool.and_eq_true, decide_eq_true_iff, decide_eq_true_iff]
  rfl

/-- The range of a decimal operand (30_encoding.md R33). -/
theorem AsmOperand.wellFormed_decimal {v : Int} :
    (AsmOperand.decimal v).wellFormed = true ↔ -(2 ^ 31) ≤ v ∧ v ≤ 2 ^ 32 - 1 := by
  rw [AsmOperand.wellFormed, Bool.and_eq_true, decide_eq_true_iff, decide_eq_true_iff]
  rfl

end Sys2Proof
end

