-- ==== Sys2Proof/Laws/Exec.lean ====
section
/-! SUPPORT. What one command can do, said once: the cases of `exec`, its equation in each case, and the
fields no command touches. -/

namespace Sys2Proof.Machine

/-- Everything an accepted command can do (41_line_commands.md R41 to R44). -/
inductive Effect (s : State) : Instr → State → Prop where
  | clr (cp : CodePoint) : Effect s (.clr cp) (openEmptyLine s)
  | pushInvalid (cp : CodePoint) (ho : s.lstate = .openLine) (hv : valid cp = false) :
      Effect s (.push cp) (raiseLineError .invalidChar s)
  | pushFull (cp : CodePoint) (ho : s.lstate = .openLine) (hv : valid cp = true)
      (hn : s.n = s.params.maxc) : Effect s (.push cp) (raiseLineError .capacity s)
  | pushAccepted (cp : CodePoint) (ho : s.lstate = .openLine) (hv : valid cp = true)
      (hn : s.n ≠ s.params.maxc) : Effect s (.push cp) (acceptBlock (lanes cp) s)
  | pushStopped (cp : CodePoint) (ho : s.lstate = .stop) : Effect s (.push cp) s
  | pushClosed (cp : CodePoint) (ho : s.lstate.lineOpen = false) :
      Effect s (.push cp) (raiseProtocolViolation .pushClosed s)
  | endCommits (cp : CodePoint) (ho : s.lstate = .openLine) :
      Effect s (.endLine cp) (s.withLState .doneOk)
  | endDiscards (cp : CodePoint) (ho : s.lstate = .stop) :
      Effect s (.endLine cp) (s.withLState .doneErr)
  | endClosed (cp : CodePoint) (ho : s.lstate.lineOpen = false) :
      Effect s (.endLine cp) (raiseProtocolViolation .endClosed s)
  | rsv (cp : CodePoint) : Effect s (.rsv cp) (raiseProtocolViolation .reservedOp s)

/-- The three kinds of line state that PUSH and END tell apart. -/
theorem LState.line_cases (l : LState) : l = .openLine ∨ l = .stop ∨ l.lineOpen = false := by
  cases l <;> decide

/-! ## The meanings, case by case -/

theorem execPush_invalid {cp : CodePoint} {s : State} (ho : s.lstate = .openLine)
    (hv : valid cp = false) : execPush cp s = .next (raiseLineError .invalidChar s) := by
  simp [execPush, ho, hv]

theorem execPush_full {cp : CodePoint} {s : State} (ho : s.lstate = .openLine) (hv : valid cp = true)
    (hn : s.n = s.params.maxc) : execPush cp s = .next (raiseLineError .capacity s) := by
  simp [execPush, ho, hv, hn]

theorem execPush_accepted {cp : CodePoint} {s : State} (ho : s.lstate = .openLine)
    (hv : valid cp = true) (hn : s.n ≠ s.params.maxc) :
    execPush cp s = .next (acceptBlock (lanes cp) s) := by
  simp [execPush, ho, hv, hn]

theorem execPush_stopped (cp : CodePoint) {s : State} (ho : s.lstate = .stop) :
    execPush cp s = .next s := by
  simp [execPush, ho]

theorem execPush_closed (cp : CodePoint) {s : State} (ho : s.lstate.lineOpen = false) :
    execPush cp s = .next (raiseProtocolViolation .pushClosed s) := by
  unfold execPush
  split <;> simp_all [LState.lineOpen]

theorem execEnd_commits (cp : CodePoint) {s : State} (ho : s.lstate = .openLine) :
    execEnd cp s = .next (s.withLState .doneOk) := by
  simp [execEnd, ho]

theorem execEnd_discards (cp : CodePoint) {s : State} (ho : s.lstate = .stop) :
    execEnd cp s = .next (s.withLState .doneErr) := by
  simp [execEnd, ho]

theorem execEnd_closed (cp : CodePoint) {s : State} (ho : s.lstate.lineOpen = false) :
    execEnd cp s = .next (raiseProtocolViolation .endClosed s) := by
  unfold execEnd
  split <;> simp_all [LState.lineOpen]

/-! ## exec -/

/-- Each case of `Effect` is what `exec` answers. -/
theorem Effect.exec_eq {s t : State} {i : Instr} (h : Effect s i t) : exec i s = .next t := by
  cases h with
  | clr cp => rfl
  | pushInvalid cp ho hv => exact execPush_invalid ho hv
  | pushFull cp ho hv hn => exact execPush_full ho hv hn
  | pushAccepted cp ho hv hn => exact execPush_accepted ho hv hn
  | pushStopped cp ho => exact execPush_stopped cp ho
  | pushClosed cp ho => exact execPush_closed cp ho
  | endCommits cp ho => exact execEnd_commits cp ho
  | endDiscards cp ho => exact execEnd_discards cp ho
  | endClosed cp ho => exact execEnd_closed cp ho
  | rsv cp => rfl

/-- Every command has an effect in every state (41_line_commands.md R40). -/
theorem exists_effect (i : Instr) (s : State) : ∃ t, Effect s i t := by
  cases i with
  | clr cp => exact ⟨_, .clr cp⟩
  | rsv cp => exact ⟨_, .rsv cp⟩
  | push cp =>
    rcases s.lstate.line_cases with ho | ho | ho
    · cases hv : valid cp with
      | false => exact ⟨_, .pushInvalid cp ho hv⟩
      | true =>
        by_cases hn : s.n = s.params.maxc
        · exact ⟨_, .pushFull cp ho hv hn⟩
        · exact ⟨_, .pushAccepted cp ho hv hn⟩
    · exact ⟨_, .pushStopped cp ho⟩
    · exact ⟨_, .pushClosed cp ho⟩
  | endLine cp =>
    rcases s.lstate.line_cases with ho | ho | ho
    · exact ⟨_, .endCommits cp ho⟩
    · exact ⟨_, .endDiscards cp ho⟩
    · exact ⟨_, .endClosed cp ho⟩

/-- `exec` answers a next state exactly by one of the cases of `Effect`. -/
theorem exec_eq_next_iff {i : Instr} {s t : State} : exec i s = .next t ↔ Effect s i t := by
  refine ⟨fun h => ?_, Effect.exec_eq⟩
  obtain ⟨u, hu⟩ := exists_effect i s
  have := hu.exec_eq.symm.trans h
  cases this
  exact hu

/-- `exec` is total: its answer is the next state of some effect. -/
theorem exec_total (i : Instr) (s : State) : ∃ t, exec i s = .next t ∧ Effect s i t :=
  let ⟨t, h⟩ := exists_effect i s
  ⟨t, h.exec_eq, h⟩

/-! ## Frames -/

theorem sameElsewhere_refl (s : State) : sameElsewhere s s := ⟨rfl, rfl, rfl, rfl⟩

theorem sameElsewhere.trans {s t u : State} (h : sameElsewhere s t) (h' : sameElsewhere t u) :
    sameElsewhere s u :=
  ⟨h'.1.trans h.1, h'.2.1.trans h.2.1, h'.2.2.1.trans h.2.2.1, h'.2.2.2.trans h.2.2.2⟩

theorem sameCells_of_eq {s t : State} (hb : t.buf = s.buf) (hd : t.draw = s.draw) : sameCells s t :=
  ⟨fun a => by rw [hb], fun a => State.cell_congr hb hd a⟩

/-- No command touches the parameter, the ports, the held command or the draw. -/
theorem Effect.sameElsewhere {i : Instr} {s t : State} (h : Effect s i t) : sameElsewhere s t := by
  cases h <;> simp [Machine.sameElsewhere]

/-- Only a PUSH that is accepted writes BUF (10_state.md R17). -/
theorem Effect.buf_eq {i : Instr} {s t : State} (h : Effect s i t)
    (hn : ∀ cp, i = .push cp → s.lstate = .openLine → valid cp = true → s.n = s.params.maxc) :
    t.buf = s.buf := by
  cases h with
  | pushAccepted cp ho hv hne => exact absurd (hn cp rfl ho hv) hne
  | _ => simp

/-- A block that is accepted goes to cells `7*N .. 7*N + 6` (41_line_commands.md R42). -/
theorem acceptBlock_read?_inside (cp : CodePoint) (s : State) {j : Nat} (hj : j ≤ 6) :
    (acceptBlock (lanes cp) s).buf.read? (7 * s.n + j) = some (lane cp j) := by
  rw [acceptBlock_buf, Memory.read?_writeSeq_inside (by simp; omega), lanes_getElem? cp hj]

/-- A block that is accepted leaves every other cell alone. -/
theorem acceptBlock_read?_outside (cp : CodePoint) (s : State) {a : Nat}
    (ha : a < 7 * s.n ∨ 7 * s.n + 7 ≤ a) :
    (acceptBlock (lanes cp) s).buf.read? a = s.buf.read? a := by
  rw [acceptBlock_buf, Memory.read?_writeSeq_outside (by simpa using ha)]

/-- A step that leaves N and BUF alone stores nothing. -/
theorem storesNothing_of_eq {s t : State} (hn : t.n = s.n) (hb : t.buf = s.buf)
    (he : sameElsewhere s t) : storesNothing s t :=
  ⟨hn, sameCells_of_eq hb he.2.2.2, he⟩

/-- No command looks at the ports: it does the same whatever is on them. -/
theorem Effect.withPorts {i : Instr} {s t : State} (h : Effect s i t) (rest : List PortCycle)
    (held : Presented) : Effect (s.withPorts rest held) i (t.withPorts rest held) := by
  have raise (c : PCause) : (raiseProtocolViolation c s).withPorts rest held =
      raiseProtocolViolation c (s.withPorts rest held) := by
    unfold raiseProtocolViolation
    rw [State.withPorts_pcause]
    split <;> rfl
  cases h with
  | clr cp => exact .clr cp
  | pushInvalid cp ho hv => exact .pushInvalid cp ho hv
  | pushFull cp ho hv hn => exact .pushFull cp ho hv hn
  | pushAccepted cp ho hv hn => exact .pushAccepted cp ho hv hn
  | pushStopped cp ho => exact .pushStopped cp ho
  | pushClosed cp ho => exact raise _ ▸ .pushClosed cp ho
  | endCommits cp ho => exact .endCommits cp ho
  | endDiscards cp ho => exact .endDiscards cp ho
  | endClosed cp ho => exact raise _ ▸ .endClosed cp ho
  | rsv cp => exact raise _ ▸ .rsv cp

/-! ## PCAUSE steers nothing -/

/-- An update that does not look at PCAUSE takes states that agree but for PCAUSE to such states. -/
theorem samePcauseAside_map {s s' : State} (f : State → State)
    (hf : ∀ u, (f u).withPcause .none = f (u.withPcause .none)) (h : samePcauseAside s s') :
    samePcauseAside (f s) (f s') := by
  unfold samePcauseAside at h ⊢
  rw [hf, hf, h]

/-- What such states agree in, of what commands look at. -/
theorem samePcauseAside_fields {s s' : State} (h : samePcauseAside s s') :
    s.lstate = s'.lstate ∧ s.n = s'.n ∧ s.params = s'.params := by
  unfold samePcauseAside at h
  refine ⟨?_, ?_, ?_⟩
  · simpa using congrArg State.lstate h
  · simpa using congrArg State.n h
  · simpa using congrArg State.params h

theorem samePcauseAside_raise {s s' : State} (c : PCause) (h : samePcauseAside s s') :
    samePcauseAside (raiseProtocolViolation c s) (raiseProtocolViolation c s') := by
  simpa [samePcauseAside] using h

/-- Two states that agree but for PCAUSE still do after the same command (10_state.md R14). -/
theorem Effect.samePcauseAside {i : Instr} {s s' t : State} (h : Effect s i t)
    (hs : samePcauseAside s s') : ∃ t', Effect s' i t' ∧ samePcauseAside t t' := by
  obtain ⟨hl, hc, hp⟩ := samePcauseAside_fields hs
  cases h with
  | clr cp => exact ⟨_, .clr cp, samePcauseAside_map openEmptyLine (fun _ => rfl) hs⟩
  | pushInvalid cp ho hv =>
    exact ⟨_, .pushInvalid cp (hl ▸ ho) hv, samePcauseAside_map (raiseLineError _) (fun _ => rfl) hs⟩
  | pushFull cp ho hv hn =>
    exact ⟨_, .pushFull cp (hl ▸ ho) hv (hc ▸ hp ▸ hn),
      samePcauseAside_map (raiseLineError _) (fun _ => rfl) hs⟩
  | pushAccepted cp ho hv hn =>
    exact ⟨_, .pushAccepted cp (hl ▸ ho) hv (hc ▸ hp ▸ hn),
      samePcauseAside_map (acceptBlock _) (fun _ => rfl) hs⟩
  | pushStopped cp ho => exact ⟨_, .pushStopped cp (hl ▸ ho), hs⟩
  | pushClosed cp ho => exact ⟨_, .pushClosed cp (hl ▸ ho), samePcauseAside_raise _ hs⟩
  | endCommits cp ho =>
    exact ⟨_, .endCommits cp (hl ▸ ho), samePcauseAside_map (State.withLState _) (fun _ => rfl) hs⟩
  | endDiscards cp ho =>
    exact ⟨_, .endDiscards cp (hl ▸ ho), samePcauseAside_map (State.withLState _) (fun _ => rfl) hs⟩
  | endClosed cp ho => exact ⟨_, .endClosed cp (hl ▸ ho), samePcauseAside_raise _ hs⟩
  | rsv cp => exact ⟨_, .rsv cp, samePcauseAside_raise _ hs⟩

end Sys2Proof.Machine
end

