-- ==== Sys2Proof/Laws/Line.lean ====
section
/-! SUPPORT. Commands in sequence: one command at the front, two sequences in a row, what every sequence
keeps, and what a run of PUSH commands does in an open and in a stopped line. -/

namespace Sys2Proof.Machine

@[simp] theorem execAll_nil (s : State) : execAll [] s = .next s := rfl

/-- One command at the front. -/
theorem execAll_cons {i : Instr} {s t : State} (h : Effect s i t) (is : List Instr) :
    execAll (i :: is) s = execAll is t := by
  rw [execAll, h.exec_eq]

/-- Two sequences in a row. -/
theorem execAll_append {is : List Instr} {s t : State} (h : execAll is s = .next t)
    (js : List Instr) : execAll (is ++ js) s = execAll js t := by
  induction is generalizing s with
  | nil => cases h; rfl
  | cons i is ih =>
    obtain ⟨u, hu⟩ := exists_effect i s
    rw [execAll_cons hu] at h
    rw [List.cons_append, execAll_cons hu, ih h]

/-- What one command keeps, given what it is, a sequence keeps. -/
theorem execAll_keeps {P : State → Prop} {is : List Instr} {s : State} (hs : P s)
    (hstep : ∀ i ∈ is, ∀ u v, P u → Effect u i v → P v) : ∃ t, execAll is s = .next t ∧ P t := by
  induction is generalizing s with
  | nil => exact ⟨s, rfl, hs⟩
  | cons i is ih =>
    obtain ⟨u, hu⟩ := exists_effect i s
    obtain ⟨t, ht, hP⟩ := ih (hstep i (by simp) s u hs hu)
      (fun j hj => hstep j (List.mem_cons_of_mem i hj))
    exact ⟨t, by rw [execAll_cons hu, ht], hP⟩

/-- Every sequence of commands completes and leaves the parameter, the ports and the draw alone. -/
theorem execAll_total (is : List Instr) (s : State) :
    ∃ t, execAll is s = .next t ∧ sameElsewhere s t :=
  execAll_keeps (P := sameElsewhere s) (sameElsewhere_refl s)
    (fun _ _ _ _ h he => h.trans he.sameElsewhere)

/-- Two sequences from two related states stay related, if each command keeps the relation. -/
theorem execAll_related {R : State → State → Prop} {is : List Instr} {s s' : State} (hs : R s s')
    (hstep : ∀ i u u' v, R u u' → Effect u i v → ∃ v', Effect u' i v' ∧ R v v') :
    ∃ t t', execAll is s = .next t ∧ execAll is s' = .next t' ∧ R t t' := by
  induction is generalizing s s' with
  | nil => exact ⟨s, s', rfl, rfl, hs⟩
  | cons i is ih =>
    obtain ⟨u, hu⟩ := exists_effect i s
    obtain ⟨u', hu', hR⟩ := hstep i s s' u hs hu
    obtain ⟨t, t', ht, ht', h⟩ := ih hR
    exact ⟨t, t', by rw [execAll_cons hu, ht], by rw [execAll_cons hu', ht'], h⟩

/-- A sequence answers one state. -/
theorem execAll_unique {is : List Instr} {s t u : State} (h : execAll is s = .next t)
    (h' : execAll is s = .next u) : u = t := by
  rw [h] at h'
  cases h'
  rfl

/-- No sequence looks at the ports. -/
theorem execAll_withPorts {is : List Instr} {s t : State} (h : execAll is s = .next t)
    (rest : List PortCycle) (held : Presented) :
    execAll is (s.withPorts rest held) = .next (t.withPorts rest held) := by
  induction is generalizing s with
  | nil => cases h; rfl
  | cons i is ih =>
    obtain ⟨u, hu⟩ := exists_effect i s
    rw [execAll_cons hu] at h
    rw [execAll_cons (hu.withPorts rest held), ih h]

/-! ## PUSH in sequence -/

/-- A stopped line ignores every PUSH (41_line_commands.md R42). -/
theorem execAll_pushes_stopped {s : State} (h : s.lstate = .stop) (cps : List CodePoint) :
    execAll (cps.map .push) s = .next s := by
  induction cps with
  | nil => rfl
  | cons c cps ih => rw [List.map_cons, execAll_cons (.pushStopped c h), ih]

/-- The line has accepted exactly the characters `acc`, and their lanes stand in the buffer
(10_state.md R16, R17). -/
structure Holds (s : State) (acc : List CodePoint) : Prop where
  count : s.n = acc.length
  cells : ∀ (i : Nat) (c : CodePoint) (j : Nat), acc[i]? = some c → j ≤ 6 →
    s.buf.read? (7 * i + j) = some (lane c j)

/-- A new line has accepted nothing. -/
theorem holds_openEmptyLine (s : State) : Holds (openEmptyLine s) [] :=
  ⟨rfl, by simp⟩

/-- `Holds` looks at N and BUF alone. -/
theorem Holds.congr {s t : State} {acc : List CodePoint} (h : Holds s acc) (hn : t.n = s.n)
    (hb : t.buf = s.buf) : Holds t acc :=
  ⟨hn.trans h.count, hb ▸ h.cells⟩

/-- An accepted character joins the others. -/
theorem Holds.accept {s : State} {acc : List CodePoint} (h : Holds s acc) (c : CodePoint) :
    Holds (acceptBlock (lanes c) s) (acc ++ [c]) := by
  refine ⟨by simp [h.count], fun i d j hd hj => ?_⟩
  rcases Nat.lt_or_ge i acc.length with hi | hi
  · rw [List.getElem?_append_left hi] at hd
    rw [acceptBlock_read?_outside c s (by have := h.count; omega), h.cells i d j hd hj]
  · rw [List.getElem?_append_right hi] at hd
    have h0 : i - acc.length = 0 := by
      rcases Nat.eq_zero_or_pos (i - acc.length) with h0 | h0
      · exact h0
      · rw [List.getElem?_eq_none (by simp; omega)] at hd
        cases hd
    have hi' : i = s.n := by have := h.count; omega
    rw [h0] at hd
    cases hd
    rw [hi', acceptBlock_read?_inside c s hj]

/-- Valid characters that fit are accepted one after another. -/
theorem execAll_pushes_accepted {s : State} {acc cps : List CodePoint} (ho : s.lstate = .openLine)
    (hh : Holds s acc) (hv : ∀ c ∈ cps, valid c = true) (hn : s.n + cps.length ≤ s.params.maxc) :
    ∃ t, execAll (cps.map .push) s = .next t ∧ t.lstate = .openLine ∧ t.errk = s.errk ∧
      t.pcause = s.pcause ∧ sameElsewhere s t ∧ Holds t (acc ++ cps) := by
  induction cps generalizing s acc with
  | nil => exact ⟨s, rfl, ho, rfl, rfl, sameElsewhere_refl s, by simpa using hh⟩
  | cons c cps ih =>
    simp only [List.length_cons] at hn
    have he : Effect s (.push c) (acceptBlock (lanes c) s) :=
      .pushAccepted c ho (hv c (by simp)) (by omega)
    obtain ⟨t, ht, hl, hk, hp, hs, hH⟩ := ih (s := acceptBlock (lanes c) s) (by simpa using ho)
      (hh.accept c) (fun d hd => hv d (List.mem_cons_of_mem c hd)) (by simp; omega)
    exact ⟨t, by rw [List.map_cons, execAll_cons he, ht], hl, by simpa using hk, by simpa using hp,
      he.sameElsewhere.trans hs, by simpa using hH⟩

/-! ## Whole lines -/

/-- Where a line goes wrong, if it does: all of it is valid and fits, or there is a first character that
is invalid or one too many. -/
theorem line_fits_or_fails (cps : List CodePoint) (maxc : Nat) :
    ((∀ c ∈ cps, valid c = true) ∧ cps.length ≤ maxc) ∨
    ∃ k c, cps[k]? = some c ∧ (∀ d ∈ cps.take k, valid d = true) ∧ k ≤ maxc ∧
      (valid c = false ∨ k = maxc) := by
  induction cps generalizing maxc with
  | nil => simp
  | cons d cps ih =>
    cases hv : valid d with
    | false => exact .inr ⟨0, d, rfl, by simp, Nat.zero_le _, .inl hv⟩
    | true =>
      cases maxc with
      | zero => exact .inr ⟨0, d, rfl, by simp, le_rfl, .inr rfl⟩
      | succ m =>
        rcases ih m with ⟨h, h'⟩ | ⟨k, c, h1, h2, h3, h4⟩
        · exact .inl (by simp_all)
        · exact .inr ⟨k + 1, c, by simpa using h1, by simpa [hv] using h2, by omega,
            h4.imp_right (by omega)⟩

/-- A line that is valid and fits is committed (41_line_commands.md R45, case 1). -/
theorem execAll_line_fits {cps : List CodePoint} {s : State} (hv : ∀ c ∈ cps, valid c = true)
    (hn : cps.length ≤ s.params.maxc) :
    ∃ t, execAll (lineCommands cps) s = .next t ∧ t.lstate = .doneOk ∧ t.errk = .none ∧
      t.pcause = .none ∧ Holds t cps ∧ t.params = s.params := by
  obtain ⟨t, ht, hl, hk, hp, hs, hH⟩ := execAll_pushes_accepted (s := openEmptyLine s) (acc := []) rfl
    (holds_openEmptyLine s) hv (by simpa using hn)
  refine ⟨t.withLState .doneOk, ?_, rfl, hk, hp, hH.congr rfl rfl, hs.1⟩
  unfold lineCommands
  rw [List.cons_append, execAll_cons (.clr _), execAll_append ht, execAll_cons (.endCommits _ hl),
    execAll_nil]

/-- A line whose character `k` is the first that is invalid or one too many is discarded
(41_line_commands.md R45, cases 2 and 3). -/
theorem execAll_line_fails {cps : List CodePoint} {s : State} {k : Nat} {c : CodePoint}
    (hc : cps[k]? = some c) (hv : ∀ d ∈ cps.take k, valid d = true) (hn : k ≤ s.params.maxc)
    (hbad : valid c = false ∨ k = s.params.maxc) :
    ∃ t, execAll (lineCommands cps) s = .next t ∧ t.lstate = .doneErr ∧
      t.errk = (if valid c then .capacity else .invalidChar) ∧ t.pcause = .none ∧ t.n = k ∧
      t.params = s.params := by
  have hlk : (cps.take k).length = k := by
    have := (List.getElem?_eq_some_iff.mp hc).1
    simp
    omega
  obtain ⟨t, ht, hl, hk, hp, hs, hH⟩ := execAll_pushes_accepted (s := openEmptyLine s) (acc := []) rfl
    (holds_openEmptyLine s) hv (by simpa [hlk] using hn)
  have hcount : t.n = k := by rw [hH.count, List.nil_append, hlk]
  have hsplit : cps = cps.take k ++ c :: cps.drop (k + 1) := by
    obtain ⟨h, rfl⟩ := List.getElem?_eq_some_iff.mp hc
    simp
  have he : Effect t (.push c) (raiseLineError (if valid c then .capacity else .invalidChar) t) := by
    cases hvc : valid c with
    | false => exact .pushInvalid c hl hvc
    | true =>
      refine .pushFull c hl hvc ?_
      rcases hbad with h | h
      · simp [hvc] at h
      · rw [hcount, h, hs.1]
        rfl
  refine ⟨(raiseLineError (if valid c then .capacity else .invalidChar) t).withLState .doneErr, ?_, rfl,
    rfl, hp, hcount, hs.1⟩
  have e : cps.map Instr.push =
      (cps.take k).map .push ++ (.push c :: (cps.drop (k + 1)).map .push) := by
    conv => lhs; rw [hsplit]
    simp
  unfold lineCommands
  rw [List.cons_append, execAll_cons (.clr _), e, List.append_assoc, execAll_append ht,
    List.cons_append, execAll_cons he, execAll_append (execAll_pushes_stopped rfl _),
    execAll_cons (.endDiscards _ rfl), execAll_nil]

/-- The code point of a character is the character's own number (92_eei_decisions.md D24). -/
theorem codePointOfChar_toNat (c : Char) : (codePointOfChar c).toNat = c.toNat := by
  have : c.toNat < 2 ^ 32 := c.val.toNat_lt
  rw [codePointOfChar, BitVec.toNat_ofNat, Nat.mod_eq_of_lt this]

end Sys2Proof.Machine
end

