-- ==== Sys2Proof/Laws/PerInstr.lean ====
section
/-! SUPPORT. Facts about a command as a term, one lemma per constructor. -/

/-- The encoding of a command lies in the command's own row of the opcode table (30_encoding.md R29). -/
def Sys2Proof.Laws.Rows.Statement (i : Sys2Proof.Instr) : Prop :=
  Sys2Proof.encode i &&& Sys2Proof.rowMask = Sys2Proof.rowMatch i.opcode

namespace Sys2Proof.Laws.Rows

/-- Masking a word with the row mask keeps its opcode field and clears the rest. -/
theorem append_and_rowMask (o : BitVec 2) (cp : CodePoint) :
    ((o ++ cp : BitVec (2 + 32)) &&& (0b11#2 ++ 0#32)) = o ++ 0#32 := by
  have h : o &&& 0b11#2 = o := by
    have : (0b11#2 : BitVec 2) = BitVec.allOnes 2 := by decide
    rw [this, BitVec.and_allOnes]
  rw [BitVec.and_append, h, BitVec.and_zero]

theorem clr (cp : CodePoint) : Statement (.clr cp) := append_and_rowMask 0b00#2 cp

theorem push (cp : CodePoint) : Statement (.push cp) := append_and_rowMask 0b01#2 cp

theorem endLine (cp : CodePoint) : Statement (.endLine cp) := append_and_rowMask 0b10#2 cp

theorem rsv (cp : CodePoint) : Statement (.rsv cp) := append_and_rowMask 0b11#2 cp

/-- The statement holds of every command. -/
theorem statement_of_all (i : Instr) : Statement i := by
  cases i with
  | clr cp => exact clr cp
  | push cp => exact push cp
  | endLine cp => exact endLine cp
  | rsv cp => exact rsv cp

end Sys2Proof.Laws.Rows
end

