-- ==== Sys2Proof/Laws/Step.lean ====
section
/-! SUPPORT. What one rising edge can do, said once, and what a run of the machine does with it. -/

namespace Sys2Proof.Machine

/-- What the port does at an edge, said once (30_encoding.md R28, 70_reset_and_hazards.md R55, R57). -/
theorem portAction_cases (held : Presented) (c : PortCycle) :
    (c.rst = true ∧ portAction held c = .reset) ∨
    (c.rst = false ∧ (c.cmdValid = false ∨ c.cmdReady = false) ∧ portAction held c = .keep) ∨
    (c.rst = false ∧ c.cmdValid = true ∧ c.cmdReady = true ∧ steady held c = false ∧
      portAction held c = .broken) ∨
    (c.rst = false ∧ c.cmdValid = true ∧ c.cmdReady = true ∧ steady held c = true ∧
      portAction held c = .accept c.cmdWord) := by
  unfold portAction
  cases hr : c.rst <;> cases hv : c.cmdValid <;> cases hy : c.cmdReady <;> cases hs : steady held c <;>
    simp_all

/-- What a step can answer, said once: nothing presented, a reset, an accepted command, an edge that
accepts nothing, or one that would accept a command which was not held stable. -/
inductive Edge (s : State) : Host.Outcome State Fault Refusal → Prop where
  | quiet (hi : s.inputs = []) : Edge s (.next s)
  | reset (c : PortCycle) (rest : List PortCycle) (hi : s.inputs = c :: rest) (hr : c.rst = true) :
      Edge s (.next (takeReset (s.withPorts rest .nothing)))
  | broken (c : PortCycle) (rest : List PortCycle) (hi : s.inputs = c :: rest) (hr : c.rst = false)
      (hv : c.cmdValid = true) (hy : c.cmdReady = true) (hs : steady s.held c = false) :
      Edge s (.refused .handshakeBroken)
  | keeps (c : PortCycle) (rest : List PortCycle) (hi : s.inputs = c :: rest) (hr : c.rst = false)
      (ha : acceptedAt c = none) : Edge s (.next (s.withPorts rest (presentedAfter s.held c)))
  | accept (c : PortCycle) (rest : List PortCycle) (hi : s.inputs = c :: rest) (hr : c.rst = false)
      (hs : steady s.held c = true) (ha : acceptedAt c = some (decode c.cmdWord)) (t : State)
      (he : Effect (s.withPorts rest .nothing) (decode c.cmdWord) t) : Edge s (.next t)

/-- A step answers by one of the cases of `Edge`. -/
theorem step_edge (s : State) : Edge s (step s) := by
  unfold step
  split
  · exact .quiet ‹_›
  · rename_i c rest hi
    rcases portAction_cases s.held c with ⟨hr, h⟩ | ⟨hr, hq, h⟩ | ⟨hr, hv, hy, hs, h⟩ |
      ⟨hr, hv, hy, hs, h⟩ <;> rw [h] <;> dsimp only
    · exact .reset c rest hi hr
    · exact .keeps c rest hi hr (by rcases hq with hq | hq <;> simp [acceptedAt, hq])
    · exact .broken c rest hi hr hv hy hs
    · obtain ⟨t, ht, he⟩ := exec_total (decode c.cmdWord) (s.withPorts rest .nothing)
      exact ht ▸ .accept c rest hi hr hs (by simp [acceptedAt, hr, hv, hy]) t he

/-- A step that answers a next state. -/
theorem edge_of_step {s t : State} (h : step s = .next t) : Edge s (.next t) := h ▸ step_edge s

/-- Nothing waits after an accepting edge. -/
theorem presentedAfter_of_accepted (held : Presented) {c : PortCycle} {i : Instr}
    (h : acceptedAt c = some i) : presentedAfter held c = .nothing := by
  unfold acceptedAt at h
  split at h
  · simp_all [presentedAfter]
  · cases h

/-- Nothing waits after an edge with no command. -/
theorem presentedAfter_of_not_valid (held : Presented) {c : PortCycle} (h : c.cmdValid = false) :
    presentedAfter held c = .nothing := by
  simp [presentedAfter, h]

/-- A command that the host holds has been held stable. -/
theorem steady_of_holds {held : Presented} {c : PortCycle} (h : holds held c = true) :
    steady held c = true := by
  cases held <;> simp_all [holds, steady]

/-- Nothing, or the very word on the port, waited. -/
theorem steady_iff (held : Presented) (c : PortCycle) :
    steady held c = true ↔ held = .nothing ∨ held = .waiting c.cmdWord := by
  cases held with
  | nothing => simp [steady]
  | waiting cw => simpa [steady] using eq_comm
  | unstable => simp [steady]

/-- The word on the port at the edge made for `cw` is `cw`. -/
@[simp] theorem commandCycle_cmdWord (cw : CmdWord) : (commandCycle cw).cmdWord = cw :=
  opField_append_cpField cw

/-- One more edge, at the front. -/
theorem steps_succ (k : Nat) {s t : State} (h : step s = .next t) : steps (k + 1) s = steps k t := by
  rw [steps, h]

end Sys2Proof.Machine
end

