-- ==== Sys2Proof/Tests/Slice0.lean ====
section
/-! SUPPORT. Tests of the model on values the spec gives (each names its source), smoke tests of the
checks of WellFormed.lean, and for every obligation with hypotheses a concrete case that meets them. -/

namespace Sys2Proof.Tests

open Sys2Proof.Machine

/-! ## Helpers -/

/-- A small state: nothing on the ports, nothing waiting there. -/
def st (l : LState) (e : ErrKind) (p : PCause) (n : Nat) (buf : Memory) (maxc : Nat) : State :=
  ⟨l, e, p, n, buf, ⟨maxc⟩, [], .nothing, 0⟩

/-- The cells of 'A' as character 0: `20 09 09 09 09 09 20` (95_test_vectors.md S1). -/
def bufA : Memory :=
  [(0, 0x20#8), (1, 0x09#8), (2, 0x09#8), (3, 0x09#8), (4, 0x09#8), (5, 0x09#8), (6, 0x20#8)]

/-- The outcome is a next state that passes the check. -/
def nextIs (o : Host.Outcome State Fault Refusal) (f : State → Bool) : Bool :=
  match o with
  | .next t => f t
  | .fault _ => false
  | .refused _ => false

/-- The outcome is the refusal of a broken handshake. -/
def isBroken (o : Host.Outcome State Fault Refusal) : Bool :=
  match o with
  | .refused .handshakeBroken => true
  | .refused (.notModelled _) => false
  | .next _ => false
  | .fault _ => false

/-- An edge that waits: `cw` is presented and `cmd_ready` is 0. -/
def waitCycle (cw : CmdWord) : PortCycle := { commandCycle cw with cmdReady := false }

/-- An edge at which nothing is presented. -/
def idleCycle : PortCycle := { commandCycle 0#34 with cmdValid := false }

/-- A reset edge at which `cw` is presented (95_test_vectors.md T1). -/
def resetCycle (cw : CmdWord) : PortCycle := { commandCycle cw with rst := true }

/-! ## Decoding: words written out from 30_encoding.md R28, R29, R33 -/

/-- CLR: `op = 00`, then 32 bits of `cp`. -/
theorem test_decode_clr :
    decode 0b0000000000000000000000000000000000#34 = .clr 0#32 := by decide

/-- PUSH 'A': `op = 01`, `cp = 0x41`. -/
theorem test_decode_push :
    decode 0b0100000000000000000000000001000001#34 = .push 0x41#32 := by decide

/-- PUSH -1: `0x1FFFFFFFF` (R33). -/
theorem test_decode_push_minus_one : decode 0x1FFFFFFFF#34 = .push 0xFFFFFFFF#32 := by decide

/-- END: `op = 10`. -/
theorem test_decode_end :
    decode 0b1000000000000000000000000000000000#34 = .endLine 0#32 := by decide

/-- RSV 5: `0x300000005` (95_test_vectors.md P3). -/
theorem test_decode_rsv :
    decode 0b1100000000000000000000000000000101#34 = .rsv 5#32 := by decide

/-- A number beyond 34 bits is no command word, refused by name. -/
theorem test_decode_beyond : decodeBits 0x400000000 = .error .beyondCommandWord := by decide

/-- The encodings of P1 and P2 (95_test_vectors.md). -/
theorem test_encode_words :
    encode (.push 0x48#32) = 0x100000048#34 ∧ encode (.push 0xE9#32) = 0x1000000E9#34 ∧
      encode (.endLine 0#32) = 0x200000000#34 := by decide

/-! ## Smoke tests of the checks: an ill-formed term for each -/

theorem test_raw_op_too_wide : RawCommand.wellFormed ⟨4, 0⟩ = false := by decide

theorem test_raw_cp_too_wide : RawCommand.wellFormed ⟨1, 2 ^ 32⟩ = false := by decide

theorem test_raw_fits : RawCommand.wellFormed ⟨3, 2 ^ 32 - 1⟩ = true := by decide

theorem test_maxc_zero : Params.wellFormed ⟨0⟩ = false := by decide

theorem test_maxc_too_large : Params.wellFormed ⟨613566757⟩ = false := by decide

theorem test_maxc_bounds :
    Params.wellFormed ⟨1⟩ = true ∧ Params.wellFormed ⟨613566756⟩ = true := by decide

/-- The word of V28 has no spelling. -/
theorem test_unspelled_clr : Instr.spelled (.clr 0xFFFFFFFF#32) = false := by decide

theorem test_unspelled_end : Instr.spelled (.endLine 1#32) = false := by decide

theorem test_decimal_too_large :
    AsmStmt.wellFormed (.push (.decimal (2 ^ 32))) = false := by decide

theorem test_decimal_too_small :
    AsmStmt.wellFormed (.rsv (some (.decimal (-(2 ^ 31) - 1)))) = false := by decide

theorem test_list_out_of_range :
    AsmStmt.wellFormed (.lineList [.decimal 200, .decimal (2 ^ 32)]) = false := by decide

/-! ## EXPAND (95_test_vectors.md 2.1) -/

/-- 'B', the asymmetric byte-order check. -/
theorem test_expand_B : xOk 0x42#32 = true ∧ xChars 0x42#32 = 0x09200909090920#56 := by decide

/-- '*', alternating. -/
theorem test_expand_star : xChars 0x2A#32 = 0x09200920092009#56 := by decide

/-- Bit 6 first and bit 0 last (S14). -/
theorem test_expand_bit_order :
    expand 0x40#32 = some [0x20#8, 0x09#8, 0x09#8, 0x09#8, 0x09#8, 0x09#8, 0x09#8] ∧
    expand 0x01#32 = some [0x09#8, 0x09#8, 0x09#8, 0x09#8, 0x09#8, 0x09#8, 0x20#8] := by decide

/-- The largest valid code point and the invalid ones of the table. -/
theorem test_expand_edges :
    xChars 0x7F#32 = 0x20202020202020#56 ∧ xOk 0x80#32 = false ∧ xOk 0x100#32 = false ∧
    xOk 0x80000000#32 = false ∧ xOk 0xFFFFFFFF#32 = false ∧ xChars 0xC8#32 = 0#56 := by decide

/-! ## Commands, one step each (95_test_vectors.md 2.2, P3) -/

/-- V1: after reset, CLR gives STATUS 1; V28: whatever its field holds. -/
theorem test_clr_after_reset :
    nextIs (step ((State.resetWith ⟨4⟩).withFetchWord 40 0x0FFFFFFFF))
      (fun t => regRead t .status == 0x00000001#32 && regRead t .count == 0#32) = true := by decide

/-- V24: CLR after a committed line hides the output and keeps the cells. -/
theorem test_clr_hides_output :
    nextIs (exec (.clr 0#32) (st .doneOk .none .endClosed 1 bufA 4))
      (fun t => regRead t .status == 0x00000001#32 && regRead t .olen == 0#32 &&
        memRead t 0#32 == 0#8 && t.buf == bufA) = true := by decide

/-- R42's example: PUSH 'A' writes BUF[0..6] and N. -/
theorem test_push_A :
    nextIs (exec (.push 0x41#32) (st .openLine .none .none 0 [] 4))
      (fun t => t.buf == bufA && t.n == 1 && regRead t .status == 0x00000001#32) = true := by decide

/-- V14: an invalid code point at a full line is INVALID_CHAR, not CAPACITY. -/
theorem test_push_invalid_first :
    nextIs (exec (.push 200#32) (st .openLine .none .none 1 bufA 1))
      (fun t => regRead t .status == 0x0000000A#32 && t.n == 1 && t.buf == bufA) = true := by decide

/-- V3 and M1 to M3: END commits, and the reads at and past the end. -/
theorem test_end_commits :
    nextIs (exec (.endLine 0#32) (st .openLine .none .none 1 bufA 4))
      (fun t => regRead t .status == 0x00000003#32 && regRead t .olen == 7#32 &&
        memRead t 6#32 == 0x20#8 && memRead t 7#32 == 0#8 && memRead t 0xFFFFFFFF#32 == 0#8) =
      true := by decide

/-- P3 #5 and #6: END after a CAPACITY error discards; a second END only sets PCAUSE. -/
theorem test_end_discards :
    nextIs (exec (.endLine 0#32) (st .stop .capacity .none 2 bufA 2))
      (fun t => regRead t .status == 0x00000014#32 &&
        nextIs (exec (.endLine 0#32) t) (fun u => regRead u .status == 0x00000054#32)) = true := by
  decide

/-- V18: RSV after reset. -/
theorem test_rsv_after_reset :
    nextIs (step ((State.resetWith ⟨4⟩).withFetchWord 40 0x300000000))
      (fun t => regRead t .status == 0x00000060#32) = true := by decide

/-- P3 #7: the first cause sticks. -/
theorem test_rsv_first_cause_sticks :
    nextIs (exec (.rsv 5#32) (st .doneErr .capacity .endClosed 2 bufA 2))
      (fun t => regRead t .status == 0x00000054#32) = true := by decide

/-- T1: a command presented at a reset edge is not accepted. -/
theorem test_reset_beats_command :
    nextIs (step { st .openLine .none .none 1 bufA 4 with inputs := [resetCycle 0x100000041#34] })
      (fun t => regRead t .status == 0#32 && regRead t .count == 0#32 && t.inputs == []) = true := by
  decide

/-- R57 duty 6: a read at the edge that accepts END sees the state before it. -/
theorem test_same_cycle_read :
    (portOutputs (st .openLine .none .none 1 bufA 4) (commandCycle 0x200000000#34)).regRdata =
      0x00000001#32 := by decide

/-- U13: after its fields changed, which command is accepted is not specified. -/
theorem test_broken_handshake :
    isBroken (step { st .openLine .none .none 0 [] 4 with
      inputs := [commandCycle 0x200000000#34], held := .waiting 0x100000041#34 }) = true := by decide

/-- R28: at an edge with `cmd_ready` at 0 nothing is accepted, whatever the fields do. -/
theorem test_changed_fields_at_a_wait :
    nextIs (step { st .openLine .none .none 0 [] 4 with
      inputs := [waitCycle 0x200000000#34], held := .waiting 0x100000041#34 })
      (fun t => t.lstate == .openLine && t.n == 0 && t.held == .unstable) = true := by decide

/-- R54: with `cmd_valid` dropped no command is presented, and the block keeps its state. -/
theorem test_dropped_command :
    nextIs (step { st .openLine .none .none 0 [] 4 with
      inputs := [idleCycle], held := .waiting 0x100000041#34 })
      (fun t => t == st .openLine .none .none 0 [] 4) = true := by decide

/-! ## The assembler's text (30_encoding.md R33, 95_test_vectors.md P1 to P4) -/

theorem test_asm_char_and_comment :
    assembleLine ['P', 'U', 'S', 'H', ' ', '\'', 'H', '\'', ' ', ';', ' ', 'x'] =
      .ok [0x100000048#34] := by decide

theorem test_asm_hex : assembleLine ['P', 'U', 'S', 'H', ' ', '0', 'x', 'E', '9'] =
    .ok [0x1000000E9#34] := by decide

theorem test_asm_minus_one : assembleLine ['P', 'U', 'S', 'H', ' ', '-', '1'] =
    .ok [0x1FFFFFFFF#34] := by decide

theorem test_asm_escape : assembleLine ['P', 'U', 'S', 'H', ' ', '\'', '\\', 't', '\''] =
    .ok [0x100000009#34] := by decide

theorem test_asm_list :
    assembleLine ['L', 'I', 'N', 'E', ' ', '[', '2', '0', '0', ',', ' ', '-', '1', ']'] =
      .ok [0x000000000#34, 0x1000000C8#34, 0x1FFFFFFFF#34, 0x200000000#34] := by decide

theorem test_asm_refuses :
    assembleLine ['N', 'O', 'P'] = .error .unknownMnemonic ∧
    assembleLine ['P', 'U', 'S', 'H'] = .error .badOperand ∧
    assembleLine ['C', 'L', 'R', ' ', '1'] = .error .textAfterStatement ∧
    assembleLine (['P', 'U', 'S', 'H', ' ', '4', '2', '9', '4', '9', '6', '7', '2', '9', '6']) =
      .error .outOfRange := by decide

/-! ## Witnesses: a concrete case for the hypotheses of every obligation -/

/-- OpcodeFieldSelectsTheCommand: each of the four opcode fields, at both ends of the operand field. -/
theorem witness_opcode_fields :
    (0x0FFFFFFFF#34).extractLsb' 32 2 = 0b00#2 ∧ (0x100000000#34).extractLsb' 32 2 = 0b01#2 ∧
    (0x2FFFFFFFF#34).extractLsb' 32 2 = 0b10#2 ∧ (0x300000000#34).extractLsb' 32 2 = 0b11#2 := by decide

/-- DecodeAndEncodeAgree: the numbers at the edges of the two ranges. -/
theorem witness_word_ranges :
    2 ^ 34 - 1 < 2 ^ 34 ∧ 2 ^ 34 ≤ 2 ^ 34 ∧ 2 ^ 34 < 2 ^ 40 ∧ 2 ^ 40 - 1 < 2 ^ 40 := by decide

/-- AssemblerWordsFollowTheirStatements: decimals at and beyond both ends of the range. -/
theorem witness_decimal_ranges :
    (-(2 ^ 31) ≤ (-2147483648 : Int) ∧ (-2147483648 : Int) ≤ 2 ^ 32 - 1) ∧
    (-(2 ^ 31) ≤ (4294967295 : Int) ∧ (4294967295 : Int) ≤ 2 ^ 32 - 1) ∧
    (-2147483649 : Int) < -(2 ^ 31) ∧ (2 ^ 32 - 1 : Int) < 4294967296 := by decide

/-- AssemblerReadsItsSpelling: a plain character, the digits of 4294967295, a plain string. -/
theorem witness_spelling :
    ('A' ≠ '\\' ∧ 'A' ≠ '\'') ∧
    ([4, 2, 9, 4, 9, 6, 7, 2, 9, 5] ≠ [] ∧ (∀ d ∈ [4, 2, 9, 4, 9, 6, 7, 2, 9, 5], d < 10) ∧
      [4, 2, 9, 4, 9, 6, 7, 2, 9, 5].foldl (fun a d => a * 10 + d) 0 < 2 ^ 32) ∧
    ∀ c ∈ ['H', 'i'], c ≠ '\\' ∧ c ≠ doubleQuote := by
  refine ⟨by decide, by decide, ?_⟩
  simp only [List.forall_mem_cons]
  exact ⟨by decide, by decide, by simp⟩

/-- A block with an edge to come that accepts PUSH 'A', with the given command waiting on the port. -/
def waiting (held : Presented) : State :=
  { st .openLine .none .none 0 [] 4 with inputs := [commandCycle 0x100000041#34], held := held }

/-- StepRunsTheAcceptedCommand, new on the port and after waiting there. -/
theorem witness_accepting_edge :
    ((waiting .nothing).inputs = commandCycle 0x100000041#34 :: [] ∧
      (waiting .nothing).held = .nothing) ∧
    (waiting (.waiting 0x100000041#34)).held =
      .waiting ((commandCycle 0x100000041#34).cmdOp ++ (commandCycle 0x100000041#34).cmdCp) ∧
    (commandCycle 0x100000041#34).rst = false ∧ (commandCycle 0x100000041#34).cmdValid = true ∧
    (commandCycle 0x100000041#34).cmdReady = true := by decide

/-- FetchWordRunsAtTheNextStep: words of 40 and of 34 bits that decode. -/
theorem witness_fetch_word :
    decodeTableWord 40 0x100000041 = some (.push 0x41#32) ∧
    decodeTableWord 34 0x3FFFFFFFF = some (.rsv 0xFFFFFFFF#32) := by decide

/-- EdgesThatAcceptNothingKeepTheState: no input; an idle edge; a waiting edge, of a
command that is new, held or changed. -/
theorem witness_quiet_edges :
    (st .openLine .none .none 0 [] 4).inputs = [] ∧
    (idleCycle.rst = false ∧ idleCycle.cmdValid = false) ∧
    (waitCycle 0x100000041#34).rst = false ∧ (waitCycle 0x100000041#34).cmdValid = true ∧
    (waitCycle 0x100000041#34).cmdReady = false ∧
    ((waiting .nothing).held = .nothing ∧
      (waiting (.waiting 0x100000041#34)).held =
        .waiting ((waitCycle 0x100000041#34).cmdOp ++ (waitCycle 0x100000041#34).cmdCp) ∧
      (waiting (.waiting 0x100000042#34)).held ≠
        .waiting ((waitCycle 0x100000041#34).cmdOp ++ (waitCycle 0x100000041#34).cmdCp)) := by decide

/-- ResetEdgeGivesTheResetValues. -/
theorem witness_reset_edge :
    { st .stop .capacity .reservedOp 4 bufA 4 with inputs := [resetCycle 0x100000041#34] }.inputs =
      resetCycle 0x100000041#34 :: [] ∧ (resetCycle 0x100000041#34).rst = true := by decide

/-- OnlyABrokenHandshakeStopsTheBlock: an edge that accepts a changed command; a stream that keeps the
handshake; one that drops a waiting command and changes it; one that presents nothing. -/
theorem witness_handshake :
    ((commandCycle 0x200000000#34).rst = false ∧ (commandCycle 0x200000000#34).cmdValid = true ∧
      (commandCycle 0x200000000#34).cmdReady = true ∧
      Presented.waiting 0x100000041#34 ≠ .waiting
        ((commandCycle 0x200000000#34).cmdOp ++ (commandCycle 0x200000000#34).cmdCp)) ∧
    keepsHandshake .nothing [waitCycle 0x100000041#34, commandCycle 0x100000041#34, idleCycle] = true ∧
    acceptsSteadily .nothing [waitCycle 0x100000041#34, idleCycle, commandCycle 0x200000000#34] = true ∧
    keepsHandshake .nothing [waitCycle 0x100000041#34, idleCycle, commandCycle 0x200000000#34] = false ∧
    ∀ c ∈ [idleCycle, idleCycle], c.cmdValid = false := by
  refine ⟨by decide, by decide, by decide, by decide, ?_⟩
  simp [idleCycle]

/-- PortTimingDoesNotMatter and LineClosesOnceItsCommandsAreAccepted: the line of one character 'A', with
a wait, a dropped command and an idle edge in between. -/
theorem witness_port_stream :
    let cs := [waitCycle 0x100000042#34, idleCycle, commandCycle 0#34, waitCycle 0x100000041#34,
      commandCycle 0x100000041#34, commandCycle 0x200000000#34]
    noReset cs = true ∧ acceptsSteadily .nothing cs = true ∧
    acceptedCommands cs = lineCommands [0x41#32] := by decide

/-- PushFollowsTheLineState: every clause, the last free place and the last valid code point among
them. -/
theorem witness_push_clauses :
    ((st .openLine .none .none 3 [] 4).lstate = .openLine ∧ valid 127#32 = true ∧
      (st .openLine .none .none 3 [] 4).n ≠ (st .openLine .none .none 3 [] 4).params.maxc) ∧
    valid 128#32 = false ∧
    (st .openLine .none .none 4 [] 4).n = (st .openLine .none .none 4 [] 4).params.maxc ∧
    (st .stop .invalidChar .none 3 [] 4).lstate = .stop ∧
    ((st .idle .none .none 0 [] 4).lstate.lineOpen = false ∧
      (st .doneOk .none .none 3 [] 4).lstate.lineOpen = false ∧
      (st .doneErr .capacity .none 4 [] 4).lstate.lineOpen = false) ∧
    (Params.wellFormed ⟨613566756⟩ = true ∧ 613566755 < 613566756) := by decide

/-- EndCommitsOrDiscardsTheLine and LineErrorStopsTheLine: every clause, with the addresses on both sides
of the output's end. -/
theorem witness_end_clauses :
    (st .openLine .none .none 1 bufA 4).lstate = .openLine ∧
    (6#32 : Word).toNat < 7 * (st .openLine .none .none 1 bufA 4).n ∧
    7 * (st .openLine .none .none 1 bufA 4).n ≤ (7#32 : Word).toNat ∧
    (st .stop .capacity .none 1 bufA 1).lstate = .stop ∧
    (st .doneOk .none .none 1 bufA 4).lstate.lineOpen = false := by decide

/-- RsvOnlyRecordsTheViolation: its two conditional clauses. -/
theorem witness_rsv_clauses :
    ((st .idle .none .none 0 [] 4).lstate = .idle ∧ (st .idle .none .none 0 [] 4).errk = .none ∧
      (st .idle .none .none 0 [] 4).pcause = .none) ∧
    (st .openLine .none .none 0 [] 4).lstate = .openLine := by decide

/-- EveryCommandCompletesByTheTable: one command of each opcode. -/
theorem witness_opcodes :
    (Instr.clr 0#32).opcode = .clr ∧ (Instr.push 0#32).opcode = .push ∧
    (Instr.endLine 0#32).opcode = .endLine ∧ (Instr.rsv 0#32).opcode = .rsv := by decide

/-- IgnoredFieldHasNoEffect: two CLR words that differ in every bit of the field. -/
theorem witness_ignored_field :
    (0x000000000#34).extractLsb' 32 2 = (0x0FFFFFFFF#34).extractLsb' 32 2 ∧
    (0x000000000#34).extractLsb' 32 2 ≠ 0b01#2 := by decide

/-- LineErrorStopsTheLine: an open line with an invalid code point, and a full one with a valid one. -/
theorem witness_line_error_commands :
    (st .openLine .none .none 4 [] 4).lstate = .openLine ∧ valid 128#32 = false ∧
    valid 127#32 = true ∧
    (st .openLine .none .none 4 [] 4).n = (st .openLine .none .none 4 [] 4).params.maxc := by decide

/-- FirstViolationSticksAndSteersNothing: PCAUSE unset and set, and each state with no line open. -/
theorem witness_pcause :
    (st .idle .none .none 0 [] 4).pcause = .none ∧
    (st .idle .none .reservedOp 0 [] 4).pcause ≠ .none ∧
    LState.lineOpen .idle = false ∧ LState.lineOpen .doneOk = false ∧
    LState.lineOpen .doneErr = false := by decide

/-- OneEventPerCommand: a line error and each of the three violations. -/
theorem witness_events :
    (Instr.push 128#32).opcode ≠ .clr ∧
    nextIs (exec (.push 128#32) (st .openLine .none .none 0 [] 4))
      (fun t => t.errk != (st .openLine .none .none 0 [] 4).errk) = true ∧
    nextIs (exec (.push 0#32) (st .idle .none .none 0 [] 4)) (fun t => t.pcause != .none) = true ∧
    nextIs (exec (.endLine 0#32) (st .idle .none .none 0 [] 4)) (fun t => t.pcause != .none) = true ∧
    nextIs (exec (.rsv 0#32) (st .openLine .none .none 0 [] 4)) (fun t => t.pcause != .none) = true := by
  decide

/-- OnlyClrOrResetLeavesAFailedLine: CLR and reset from a failed line. -/
theorem witness_leaves_failure :
    LState.failed .doneErr = true ∧
    nextIs (step ((st .doneErr .capacity .none 4 [] 4).withFetchWord 40 0)) (fun t => !t.lstate.failed) =
      true ∧
    nextIs (step { st .stop .capacity .none 4 [] 4 with inputs := [resetCycle 0#34] })
      (fun t => !t.lstate.failed) = true := by decide

/-- OnlyAnAcceptedPushWritesTheBuffer: a PUSH and a reset that change cell 6. -/
theorem witness_buffer_changes :
    nextIs (step ((st .openLine .none .none 0 [] 4).withFetchWord 40 0x100000041))
      (fun t => t.buf.read? 6 != Memory.read? [] 6) = true ∧
    nextIs (step { st .doneOk .none .none 1 bufA 4 with inputs := [resetCycle 0#34] })
      (fun t => t.buf.read? 6 != Memory.read? bufA 6) = true := by decide

/-- OrderedHostCausesNoViolation: two whole lines from reset, and the rest of an open line. -/
theorem witness_ordered :
    (State.resetWith ⟨4⟩).pcause = .none ∧
    ordered (State.resetWith ⟨4⟩).lstate.lineOpen
      [.clr 0#32, .push 65#32, .endLine 0#32, .clr 0#32, .endLine 0#32] = true ∧
    ordered (st .stop .invalidChar .none 0 [] 4).lstate.lineOpen [.push 65#32, .endLine 0#32] = true := by
  decide

/-- ExpandObeysItsLaws and LaneCarriesItsBit: a block, and two code points with one block. -/
theorem witness_expand :
    expand 127#32 = some (lanes 127#32) ∧ valid 127#32 = true ∧ valid 128#32 = false ∧
    expand 127#32 = expand 127#32 := by decide

/-- ExpanderPortPacksTheLanes: a valid and an invalid code point on the port. -/
theorem witness_expander_port :
    valid { commandCycle 0#34 with xCp := 127#32 }.xCp = true ∧
    valid { commandCycle 0#34 with xCp := 128#32 }.xCp = false := by decide

/-- A committed line of one character: it satisfies the invariant, and so the hypotheses of
BufferShowsCommittedOutputOnly. -/
theorem witness_committed_inv : (st .doneOk .none .none 1 bufA 4).Inv where
  params_ok := by decide
  count_le := by decide
  errk_iff := by decide
  capacity_full := by decide
  idle_empty := by decide
  buf_wf := by decide
  buf_bound := by
    intro a ha
    have ha : 28 ≤ a := ha
    simp only [st, bufA, Memory.read?]
    rw [if_neg (by omega), if_neg (by omega), if_neg (by omega), if_neg (by omega), if_neg (by omega),
      if_neg (by omega), if_neg (by omega)]
  buf_alphabet := by
    intro a v h
    simp only [st, bufA, Memory.read?] at h
    repeat' split at h
    all_goals first
      | (cases h; exact .inl rfl)
      | (cases h; exact .inr rfl)
      | cases h
  buf_filled := by decide

/-- BufferShowsCommittedOutputOnly: the last committed address, the first one past it, and a state
outside the read window. -/
theorem witness_gate :
    (6#32 : Word).toNat < 7 * (st .doneOk .none .none 1 bufA 4).n ∧
    7 * (st .doneOk .none .none 1 bufA 4).n ≤ (7#32 : Word).toNat ∧
    readWindow (st .doneErr .capacity .none 1 bufA 1) = false := by decide

/-- RegistersShowTheState: a full line of the largest capacity, and each register number. -/
theorem witness_registers :
    (st .doneOk .none .none 613566756 [] 613566756).params.wellFormed = true ∧
    (st .doneOk .none .none 613566756 [] 613566756).n ≤
      (st .doneOk .none .none 613566756 [] 613566756).params.maxc ∧
    { commandCycle 0#34 with regNum := 3#2 }.regNum = 3#2 := by decide

/-- InvariantHoldsAtReset: both ends of the capacity's range. -/
theorem witness_capacities : Params.wellFormed ⟨1⟩ = true ∧ Params.wellFormed ⟨613566756⟩ = true :=
  test_maxc_bounds

/-- StepKeepsTheInvariant: a state that satisfies it and steps. -/
theorem witness_inv_steps : (st .doneOk .none .none 1 bufA 4).Inv ∧
    nextIs (step (st .doneOk .none .none 1 bufA 4)) (fun _ => true) = true :=
  ⟨witness_committed_inv, by decide⟩

/-- BufferHoldsThePushedLanes: commands without CLR, with each of the two error kinds as the end. -/
theorem witness_within_line :
    withinOneLine [.push 65#32, .push 200#32, .endLine 0#32] = true ∧
    nextIs (execAll [.clr 0#32, .push 65#32, .push 200#32] (st .idle .none .none 0 [] 4))
      (fun t => t.errk == .invalidChar && t.n == 1) = true ∧
    nextIs (execAll [.clr 0#32, .push 65#32, .push 66#32] (st .idle .none .none 0 [] 1))
      (fun t => t.errk == .capacity && t.n == 1) = true := by decide

/-- LineResultIsAllOrNothing: each of the three cases at `MAXC = 1`, at its boundary: one character fits,
an invalid one at index `MAXC`, and one valid character too many. -/
theorem witness_line_cases :
    Params.wellFormed ⟨1⟩ = true ∧
    ((∀ c ∈ [127#32], valid c = true) ∧ [127#32].length ≤ 1) ∧
    ([127#32, 128#32][1]? = some 128#32 ∧ valid 128#32 = false ∧
      ∀ d ∈ [127#32, 128#32].take 1, valid d = true) ∧
    (1 < [127#32, 127#32].length ∧ ∀ d ∈ [127#32, 127#32].take (1 + 1), valid d = true) := by
  have h : valid 127#32 = true := by decide
  exact ⟨by decide, ⟨by simp [h], by decide⟩, ⟨rfl, by decide, by simp [h]⟩, by decide, by simp [h]⟩

/-- NoReadShowsWhatCameBeforeClr: two states that differ in all but the capacity. -/
theorem witness_two_histories :
    (st .doneOk .none .none 1 bufA 4).params = (st .stop .invalidChar .reservedOp 0 [] 4).params := by
  decide

/-- ConcatenatedLinesConcatenateTheirOutput: two lines that fill the buffer together. -/
theorem witness_concatenation :
    Params.wellFormed ⟨2⟩ = true ∧ (∀ c ∈ [0#32] ++ [127#32], valid c = true) ∧
    ([0#32] ++ [127#32]).length ≤ 2 := by
  have h : valid 0#32 = true ∧ valid 127#32 = true := by decide
  exact ⟨by decide, by simp [h], by decide⟩

/-- EntryPointKeepsItsContract: each of the three cases at `MAXC = 1`. -/
theorem witness_entry_point :
    Params.wellFormed ⟨1⟩ = true ∧
    ((∀ c ∈ ['A'], c.toNat ≤ 127) ∧ ['A'].length ≤ 1) ∧
    (['A', 'é'][1]? = some 'é' ∧ 127 < 'é'.toNat ∧ ∀ d ∈ ['A', 'é'].take 1, d.toNat ≤ 127) ∧
    (1 < ['A', 'B'].length ∧ ∀ d ∈ ['A', 'B'].take (1 + 1), d.toNat ≤ 127) := by
  exact ⟨by decide, ⟨by simp, by decide⟩, ⟨rfl, by decide, by simp⟩, by decide, by simp⟩

end Sys2Proof.Tests
end

section
/-! SUPPORT. The reset values (10_state.md R18) as one predicate: which states have them, and what the
host reads in such a state. -/

namespace Sys2Proof.Machine

/-- Every element of state has its reset value (10_state.md R18); no cell has a known value. -/
structure AtReset (s : State) : Prop where
  lstate : s.lstate = .idle
  errk : s.errk = .none
  pcause : s.pcause = .none
  n : s.n = 0
  buf : s.buf = []

theorem atReset_resetWith (p : Params) : AtReset (.resetWith p) := ⟨rfl, rfl, rfl, rfl, rfl⟩

theorem atReset_takeReset (s : State) : AtReset (takeReset s) := ⟨rfl, rfl, rfl, rfl, rfl⟩

theorem AtReset.regRead_status {s : State} (h : AtReset s) : regRead s .status = 0x00000000#32 := by
  simp only [regRead, statusWord, statusFields, h.lstate, h.errk, h.pcause]
  rfl

theorem AtReset.regRead_count {s : State} (h : AtReset s) : regRead s .count = 0x00000000#32 := by
  simp only [regRead, h.n]

theorem AtReset.regRead_olen {s : State} (h : AtReset s) : regRead s .olen = 0x00000000#32 := by
  simp [regRead, h.lstate]

theorem AtReset.memRead_eq_zero {s : State} (h : AtReset s) (a : Word) : memRead s a = 0x00#8 := by
  simp [memRead, h.lstate]

/-- The reset values satisfy the invariant at every legal capacity. -/
theorem AtReset.inv {s : State} (h : AtReset s) (hp : s.params.wellFormed = true) : s.Inv where
  params_ok := hp
  count_le := h.n ▸ Nat.zero_le _
  errk_iff := by simp [h.errk, h.lstate, LState.failed]
  capacity_full := by simp [h.errk]
  idle_empty := fun _ => h.n
  buf_wf := h.buf ▸ Memory.wf_nil
  buf_bound := by simp [h.buf]
  buf_alphabet := by simp [h.buf]
  buf_filled := by simp [h.n]

theorem resetParams_wellFormed : resetParams.wellFormed = true := by decide

/-- A reset edge takes the reset event, whatever waits or is presented (70_reset_and_hazards.md R55). -/
theorem step_of_rst {s : State} {c : PortCycle} {rest : List PortCycle} (hi : s.inputs = c :: rest)
    (hr : c.rst = true) : step s = .next (takeReset (s.withPorts rest .nothing)) := by
  simp [step, hi, portAction, hr]

end Sys2Proof.Machine
end

section
/-! SUPPORT. Where BUF changes (10_state.md R17): a cell after an accepted block, and the one command that
writes cells. -/

namespace Sys2Proof.Machine

/-- A cell after an accepted block is one of its seven lanes or what it was. -/
theorem acceptBlock_read?_cases (cp : CodePoint) (s : State) (a : Nat) :
    (∃ j, j ≤ 6 ∧ a = 7 * s.n + j ∧
      (acceptBlock (lanes cp) s).buf.read? a = some (lane cp j)) ∨
    ((a < 7 * s.n ∨ 7 * s.n + 7 ≤ a) ∧
      (acceptBlock (lanes cp) s).buf.read? a = s.buf.read? a) := by
  by_cases ha : a < 7 * s.n ∨ 7 * s.n + 7 ≤ a
  · exact .inr ⟨ha, acceptBlock_read?_outside cp s ha⟩
  · obtain ⟨j, rfl⟩ := Nat.exists_eq_add_of_le (show 7 * s.n ≤ a by omega)
    have hj : j ≤ 6 := by omega
    exact .inl ⟨j, hj, rfl, acceptBlock_read?_inside cp s hj⟩

/-- A command that changes what was written to a cell is a PUSH that is accepted, and the cell is one of
the seven of its block. -/
theorem Effect.push_of_read?_ne {i : Instr} {s t : State} {a : Nat} (h : Effect s i t)
    (hne : t.buf.read? a ≠ s.buf.read? a) :
    ∃ cp, i = .push cp ∧ s.lstate = .openLine ∧ valid cp = true ∧ s.n ≠ s.params.maxc ∧
      7 * s.n ≤ a ∧ a ≤ 7 * s.n + 6 := by
  cases h with
  | pushAccepted cp ho hv hn =>
    rcases acceptBlock_read?_cases cp s a with ⟨j, hj, rfl, -⟩ | ⟨-, hsame⟩
    · exact ⟨cp, rfl, ho, hv, hn, by omega, by omega⟩
    · exact absurd hsame hne
  | _ => simp at hne

end Sys2Proof.Machine
end

section
/-! SUPPORT. The invariant, operation by operation: a step keeps it because each effect of a command and
each kind of edge does. -/

namespace Sys2Proof.Machine

/-- In an open line no error is latched (10_state.md R13). -/
theorem State.Inv.errk_eq_none {s : State} (h : s.Inv) (ho : s.lstate = .openLine) :
    s.errk = .none := by
  simpa [ho, LState.failed] using h.errk_iff

/-- An update that leaves BUF and the parameter alone and does not raise N has to keep only what the
invariant says of LSTATE and ERRK. -/
theorem State.Inv.of_buf_eq {s t : State} (h : s.Inv) (hp : t.params = s.params)
    (hb : t.buf = s.buf) (hn : t.n ≤ s.n) (herr : t.errk ≠ .none ↔ t.lstate.failed = true)
    (hcap : t.errk = .capacity → t.n = s.params.maxc) (hidle : t.lstate = .idle → t.n = 0) :
    t.Inv where
  params_ok := hp ▸ h.params_ok
  count_le := hp ▸ hn.trans h.count_le
  errk_iff := herr
  capacity_full := hp ▸ hcap
  idle_empty := hidle
  buf_wf := hb ▸ h.buf_wf
  buf_bound := by rw [hb, hp]; exact h.buf_bound
  buf_alphabet := hb ▸ h.buf_alphabet
  buf_filled := fun a ha => hb ▸ h.buf_filled a (by omega)

/-- The invariant does not look at PCAUSE, the ports, the waiting command or the draw. -/
theorem State.Inv.congr {s t : State} (h : s.Inv) (hl : t.lstate = s.lstate) (he : t.errk = s.errk)
    (hn : t.n = s.n) (hb : t.buf = s.buf) (hp : t.params = s.params) : t.Inv :=
  h.of_buf_eq hp hb hn.le (by rw [he, hl]; exact h.errk_iff) (by rw [he, hn]; exact h.capacity_full)
    (by rw [hl, hn]; exact h.idle_empty)

theorem State.Inv.withPorts {s : State} (h : s.Inv) (rest : List PortCycle) (held : Presented) :
    (s.withPorts rest held).Inv :=
  h.congr rfl rfl rfl rfl rfl

theorem State.Inv.raiseProtocolViolation {s : State} (h : s.Inv) (c : PCause) :
    (raiseProtocolViolation c s).Inv :=
  h.congr (by simp) (by simp) (by simp) (by simp) (by simp)

/-- A line error keeps the invariant, if it is one and CAPACITY is raised at a full line only. -/
theorem State.Inv.raiseLineError {s : State} (h : s.Inv) {k : ErrKind} (hk : k ≠ .none)
    (hcap : k = .capacity → s.n = s.params.maxc) : (raiseLineError k s).Inv :=
  h.of_buf_eq rfl rfl le_rfl (by simp [hk, LState.failed]) hcap (by simp)

theorem State.Inv.openEmptyLine {s : State} (h : s.Inv) : (openEmptyLine s).Inv :=
  h.of_buf_eq rfl rfl (Nat.zero_le _) (by simp [LState.failed]) (by simp) (by simp)

/-- Closing a line: an open one in DONE_OK, a stopped one in DONE_ERR. -/
theorem State.Inv.withLState {s : State} (h : s.Inv) {l : LState} (hf : l.failed = s.lstate.failed)
    (hi : l ≠ .idle) : (s.withLState l).Inv :=
  h.of_buf_eq rfl rfl le_rfl (by simpa [hf] using h.errk_iff) h.capacity_full
    (fun hl => absurd hl hi)

/-- A line that is not full has room for one more character (10_state.md R16). -/
theorem State.Inv.count_lt {s : State} (h : s.Inv) (hn : s.n ≠ s.params.maxc) :
    s.n < s.params.maxc :=
  lt_of_le_of_ne h.count_le hn

/-- An accepted block keeps the invariant: there was room for it, and its cells are the next seven. -/
theorem State.Inv.acceptBlock {s : State} (h : s.Inv) (cp : CodePoint) (ho : s.lstate = .openLine)
    (hn : s.n ≠ s.params.maxc) : (acceptBlock (lanes cp) s).Inv where
  params_ok := h.params_ok
  count_le := h.count_lt hn
  errk_iff := h.errk_iff
  capacity_full := by simp [h.errk_eq_none ho]
  idle_empty := by simp [ho]
  buf_wf := Memory.wf_writeSeq h.buf_wf _ _
  buf_bound := by
    intro a ha
    have hroom := h.count_lt hn
    have hbound : 7 * s.params.maxc ≤ a := ha
    rw [acceptBlock_read?_outside cp s (by omega)]
    exact h.buf_bound a ha
  buf_alphabet := by
    intro a v hv
    rcases acceptBlock_read?_cases cp s a with ⟨j, -, -, hread⟩ | ⟨-, hsame⟩
    · rw [hread] at hv
      cases hv
      exact lane_sp_or_tab cp j
    · exact h.buf_alphabet a v (hsame ▸ hv)
  buf_filled := by
    intro a ha
    rw [acceptBlock_n] at ha
    rcases acceptBlock_read?_cases cp s a with ⟨j, -, -, hread⟩ | ⟨hout, hsame⟩
    · rw [hread]
      rfl
    · rw [hsame]
      exact h.buf_filled a (by omega)

/-- Every command keeps the invariant. -/
theorem Effect.inv {i : Instr} {s t : State} (he : Effect s i t) (h : s.Inv) : t.Inv := by
  cases he with
  | clr cp => exact h.openEmptyLine
  | pushInvalid cp ho hv => exact h.raiseLineError (by decide) (by simp)
  | pushFull cp ho hv hn => exact h.raiseLineError (by decide) (fun _ => hn)
  | pushAccepted cp ho hv hn => exact h.acceptBlock cp ho hn
  | pushStopped cp ho => exact h
  | pushClosed cp ho => exact h.raiseProtocolViolation _
  | endCommits cp ho => exact h.withLState (by rw [ho]; rfl) (by decide)
  | endDiscards cp ho => exact h.withLState (by rw [ho]; rfl) (by decide)
  | endClosed cp ho => exact h.raiseProtocolViolation _
  | rsv cp => exact h.raiseProtocolViolation _

/-- The reset event gives the invariant at any legal capacity, whatever the state was. -/
theorem takeReset_inv {s : State} (hp : s.params.wellFormed = true) : (takeReset s).Inv :=
  (atReset_takeReset s).inv hp

end Sys2Proof.Machine
end

section
/-! SUPPORT. The fields of STATUS and the registers by number (10_state.md R15). -/

namespace Sys2Proof.Machine

theorem status_lstate_field (s : State) :
    (regRead s .status).extractLsb' 0 3 = s.lstate.code :=
  (BitVec.extractLsb'_setWidth_of_le (by omega)).trans BitVec.extractLsb'_append_eq_right

theorem status_errk_field (s : State) :
    (regRead s .status).extractLsb' 3 2 = s.errk.code :=
  calc (regRead s .status).extractLsb' 3 2
    _ = (statusFields s).extractLsb' 3 2 := BitVec.extractLsb'_setWidth_of_le (by omega)
    _ = (s.pcause.code ++ s.errk.code).extractLsb' 0 2 := BitVec.extractLsb'_append_eq_of_le le_rfl
    _ = s.errk.code := BitVec.extractLsb'_append_eq_right

theorem status_pcause_field (s : State) :
    (regRead s .status).extractLsb' 5 2 = s.pcause.code :=
  calc (regRead s .status).extractLsb' 5 2
    _ = (statusFields s).extractLsb' 5 2 := BitVec.extractLsb'_setWidth_of_le (by omega)
    _ = (s.pcause.code ++ s.errk.code).extractLsb' 2 2 :=
      BitVec.extractLsb'_append_eq_of_le (by omega)
    _ = s.pcause.code := BitVec.extractLsb'_append_eq_left

/-- Bits 31:7 of STATUS are hardwired 0. -/
theorem status_upper_bits (s : State) : (regRead s .status).extractLsb' 7 25 = 0#25 := by
  ext i hi
  simp [regRead, statusWord, BitVec.getLsbD_of_ge]

/-- COUNT shows N uncut (10_state.md R16: N is within MAXC, and R4 bounds MAXC). -/
theorem count_toNat {s : State} (hp : s.params.wellFormed = true) (hn : s.n ≤ s.params.maxc) :
    (regRead s .count).toNat = s.n := by
  have hmax := (Params.wellFormed_iff.mp hp).2
  exact (BitVec.toNat_ofNat _ _).trans (Nat.mod_eq_of_lt (by omega))

/-- OLEN shows the length of the committed output uncut: `7 * MAXC` fits 32 bits (00_scope.md R4). -/
theorem olen_toNat {s : State} (hp : s.params.wellFormed = true) (hn : s.n ≤ s.params.maxc) :
    (regRead s .olen).toNat = if s.lstate = .doneOk then 7 * s.n else 0 := by
  have hmax := (Params.wellFormed_iff.mp hp).2
  simp only [regRead]
  split
  · exact (BitVec.toNat_ofNat _ _).trans (Nat.mod_eq_of_lt (by omega))
  · rfl

/-- CAP shows MAXC uncut. -/
theorem cap_toNat {s : State} (hp : s.params.wellFormed = true) :
    (regRead s .cap).toNat = s.params.maxc := by
  have hmax := (Params.wellFormed_iff.mp hp).2
  exact (BitVec.toNat_ofNat _ _).trans (Nat.mod_eq_of_lt (by omega))

/-- The register port shows the register that the number selects. -/
theorem regRdata_of_regNum {c : PortCycle} {r : BitVec 2} (h : c.regNum = r) (s : State) :
    (portOutputs s c).regRdata = regRead s (registerOf r) :=
  h ▸ rfl

/-- No edge looks at the register number: a register read has no side effect (10_state.md R15). -/
theorem step_ignores_regNum (s : State) (c : PortCycle) (rest : List PortCycle) (r : BitVec 2) :
    step (s.withPorts ({ c with regNum := r } :: rest) s.held) =
      step (s.withPorts (c :: rest) s.held) :=
  rfl

end Sys2Proof.Machine
end

section
/-! SUPPORT. What the commands of one line leave behind: N, BUF and ERRK against the code points pushed
since the CLR (10_state.md R16, R17; 60_exceptions.md R46). -/

namespace Sys2Proof.Machine

/-- The line has accepted the valid characters `acc`; what was pushed after them, `rest`, had no effect on
N and BUF. It is nothing while the line is open, and its head is what a latched error speaks of. -/
structure LineSoFar (s : State) (acc rest : List CodePoint) : Prop where
  holds : Holds s acc
  valid_acc : ∀ c ∈ acc, valid c = true
  while_open : s.lstate = .openLine → s.errk = .none ∧ rest = []
  at_invalid : s.errk = .invalidChar → ∃ c, rest[0]? = some c ∧ valid c = false
  at_capacity : s.errk = .capacity → s.n = s.params.maxc ∧ ∃ c, rest[0]? = some c ∧ valid c = true

/-- A new line: nothing was pushed. -/
theorem lineSoFar_openEmptyLine (s : State) : LineSoFar (openEmptyLine s) [] [] :=
  ⟨holds_openEmptyLine s, by simp, by simp, by simp, by simp⟩

/-- What a command pushes without effect on N, BUF and ERRK joins `rest`, and the line does not open. -/
theorem LineSoFar.ignore {s t : State} {acc rest : List CodePoint} (h : LineSoFar s acc rest)
    (cps : List CodePoint) (hn : t.n = s.n) (hb : t.buf = s.buf) (hp : t.params = s.params)
    (he : t.errk = s.errk) (ho : t.lstate = .openLine → s.lstate = .openLine ∧ cps = []) :
    LineSoFar t acc (rest ++ cps) := by
  have head_kept {c : CodePoint} (hc : rest[0]? = some c) : (rest ++ cps)[0]? = some c := by
    rw [List.getElem?_append_left (List.getElem?_eq_some_iff.mp hc).1, hc]
  refine ⟨h.holds.congr hn hb, h.valid_acc, fun hot => ?_, fun hk => ?_, fun hk => ?_⟩
  · obtain ⟨hos, rfl⟩ := ho hot
    simpa [he] using h.while_open hos
  · obtain ⟨c, hc, hv⟩ := h.at_invalid (he ▸ hk)
    exact ⟨c, head_kept hc, hv⟩
  · obtain ⟨hfull, c, hc, hv⟩ := h.at_capacity (he ▸ hk)
    exact ⟨by rw [hn, hp, hfull], c, head_kept hc, hv⟩

/-- A protocol violation has no effect on the line. -/
theorem LineSoFar.raise {s : State} {acc rest : List CodePoint} (h : LineSoFar s acc rest)
    (cause : PCause) (cps : List CodePoint) (ho : s.lstate = .openLine → cps = []) :
    LineSoFar (raiseProtocolViolation cause s) acc (rest ++ cps) := by
  refine h.ignore cps (by simp) (by simp) (by simp) (by simp) (fun hl => ?_)
  rw [raiseProtocolViolation_lstate] at hl
  exact ⟨hl, ho hl⟩

/-- A command other than CLR: the code point it pushes, if any, is accepted or joins the rest. -/
theorem Effect.lineSoFar {i : Instr} {s t : State} {acc rest : List CodePoint} (he : Effect s i t)
    (hi : i.opcode ≠ .clr) (h : LineSoFar s acc rest) :
    ∃ acc' rest', acc' ++ rest' = acc ++ rest ++ pushedCodePoints [i] ∧ LineSoFar t acc' rest' := by
  cases he with
  | clr cp => exact absurd rfl hi
  | pushInvalid cp ho hv =>
    obtain ⟨-, rfl⟩ := h.while_open ho
    exact ⟨acc, [cp], by simp [pushedCodePoints], h.holds.congr rfl rfl, h.valid_acc, by simp,
      fun _ => ⟨cp, rfl, hv⟩, by simp⟩
  | pushFull cp ho hv hn =>
    obtain ⟨-, rfl⟩ := h.while_open ho
    exact ⟨acc, [cp], by simp [pushedCodePoints], h.holds.congr rfl rfl, h.valid_acc, by simp,
      by simp, fun _ => ⟨hn, cp, rfl, hv⟩⟩
  | pushAccepted cp ho hv hn =>
    obtain ⟨hk, rfl⟩ := h.while_open ho
    refine ⟨acc ++ [cp], [], by simp [pushedCodePoints], h.holds.accept cp, ?_, by simp [hk],
      by simp [hk], by simp [hk]⟩
    simpa [or_imp, forall_and, hv] using h.valid_acc
  | pushStopped cp ho =>
    exact ⟨acc, rest ++ [cp], by simp [pushedCodePoints], h.ignore [cp] rfl rfl rfl rfl (by simp [ho])⟩
  | pushClosed cp ho =>
    have hclosed : s.lstate ≠ .openLine := by
      intro hs
      simp [hs, LState.lineOpen] at ho
    exact ⟨acc, rest ++ [cp], by simp [pushedCodePoints], h.raise _ [cp] (absurd · hclosed)⟩
  | endCommits cp ho =>
    exact ⟨acc, rest ++ [], by simp [pushedCodePoints], h.ignore [] rfl rfl rfl rfl (by simp)⟩
  | endDiscards cp ho =>
    exact ⟨acc, rest ++ [], by simp [pushedCodePoints], h.ignore [] rfl rfl rfl rfl (by simp)⟩
  | endClosed cp ho =>
    exact ⟨acc, rest ++ [], by simp [pushedCodePoints], h.raise _ [] (fun _ => rfl)⟩
  | rsv cp =>
    exact ⟨acc, rest ++ [], by simp [pushedCodePoints], h.raise _ [] (fun _ => rfl)⟩

/-- The code points pushed by one command and then by others. -/
theorem pushedCodePoints_cons (i : Instr) (is : List Instr) :
    pushedCodePoints (i :: is) = pushedCodePoints [i] ++ pushedCodePoints is :=
  List.filterMap_append (l := [i])

/-- Commands of one line after another: each code point pushed is accepted or joins the rest. -/
theorem execAll_lineSoFar {is : List Instr} {s : State} {acc rest : List CodePoint}
    (hw : withinOneLine is = true) (h : LineSoFar s acc rest) :
    ∃ t acc' rest', execAll is s = .next t ∧ acc' ++ rest' = acc ++ rest ++ pushedCodePoints is ∧
      LineSoFar t acc' rest' := by
  induction is generalizing s acc rest with
  | nil => exact ⟨s, acc, rest, rfl, by simp [pushedCodePoints], h⟩
  | cons i is ih =>
    obtain ⟨hi, his⟩ : i.opcode ≠ .clr ∧ withinOneLine is = true := by
      simpa [withinOneLine] using hw
    obtain ⟨u, hu⟩ := exists_effect i s
    obtain ⟨acc₁, rest₁, hpush₁, h₁⟩ := hu.lineSoFar hi h
    obtain ⟨t, acc₂, rest₂, ht, hpush₂, h₂⟩ := ih his h₁
    refine ⟨t, acc₂, rest₂, by rw [execAll_cons hu, ht], ?_, h₂⟩
    rw [hpush₂, hpush₁, List.append_assoc, ← pushedCodePoints_cons]

/-- Where the accepted characters end, the rest begins. -/
theorem LineSoFar.getElem?_count {s : State} {acc rest : List CodePoint}
    (h : LineSoFar s acc rest) : (acc ++ rest)[s.n]? = rest[0]? := by
  rw [h.holds.count, List.getElem?_append_right le_rfl, Nat.sub_self]

/-- Each of the first N characters is valid, and its lanes stand in its seven cells. -/
theorem LineSoFar.accepted {s : State} {acc rest : List CodePoint} (h : LineSoFar s acc rest) {i : Nat}
    (hi : i < s.n) : ∃ c, (acc ++ rest)[i]? = some c ∧ valid c = true ∧
      ∀ j, j ≤ 6 → s.buf.read? (7 * i + j) = some (lane c j) := by
  have hlen : i < acc.length := h.holds.count ▸ hi
  have hget : acc[i]? = some acc[i] := List.getElem?_eq_getElem hlen
  exact ⟨acc[i], by rw [List.getElem?_append_left hlen, hget],
    h.valid_acc _ (List.getElem_mem hlen), fun j hj => h.holds.cells i _ j hget hj⟩

end Sys2Proof.Machine
end

section
/-! The statements of 10_state.md. -/

namespace Sys2Proof.Machine

/-- Settles O33, edge by edge: a reset gives the reset values, an accepted command keeps the invariant
by `Effect.inv`, and every other edge touches the ports alone. -/
theorem stepKeepsTheInvariant : Obligations.StepKeepsTheInvariant := by
  intro s t h hstep
  cases edge_of_step hstep with
  | quiet hi => exact h
  | reset c rest hi hr => exact takeReset_inv h.params_ok
  | keeps c rest hi hr ha => exact h.withPorts _ _
  | accept c rest hi hr hs ha _ he => exact he.inv (h.withPorts _ _)

/-- Settles O24: an edge without reset and without an accepted command keeps BUF, and of the commands
only an accepted PUSH writes it. -/
theorem onlyAnAcceptedPushWritesTheBuffer : Obligations.OnlyAnAcceptedPushWritesTheBuffer := by
  intro s t a hstep hne
  cases edge_of_step hstep with
  | quiet hi => exact absurd rfl hne
  | reset c rest hi hr => exact ⟨c, rest, hi, .inl hr⟩
  | keeps c rest hi hr ha => exact absurd rfl hne
  | accept c rest hi hr hs ha _ he =>
    obtain ⟨cp, hcp, hpush⟩ := he.push_of_read?_ne hne
    exact ⟨c, rest, hi, .inr ⟨cp, hcp ▸ ha, hpush⟩⟩

/-- Settles O31, register by register. -/
theorem registersShowTheState : Obligations.RegistersShowTheState := by
  intro s hp hn
  refine ⟨?_, ?_, ?_, status_upper_bits s, count_toNat hp hn, olen_toNat hp hn, cap_toNat hp,
    fun c => ⟨fun h => regRdata_of_regNum h s, fun h => regRdata_of_regNum h s,
      fun h => regRdata_of_regNum h s, fun h => regRdata_of_regNum h s⟩,
    step_ignores_regNum s⟩
  · rw [status_lstate_field]
    cases s.lstate <;> rfl
  · rw [status_errk_field]
    cases s.errk <;> rfl
  · rw [status_pcause_field]
    cases s.pcause <;> rfl

/-- Settles O34: CLR leaves a new line, and the commands after it keep `LineSoFar`. -/
theorem bufferHoldsThePushedLanes : Obligations.BufferHoldsThePushedLanes := by
  intro cp is s hw
  obtain ⟨t, acc, rest, ht, hpush, h⟩ := execAll_lineSoFar hw (lineSoFar_openEmptyLine s)
  obtain ⟨u, hu, hparams, -⟩ := execAll_total is (openEmptyLine s)
  obtain rfl := execAll_unique ht hu
  replace hpush : pushedCodePoints is = acc ++ rest := hpush.symm
  rw [hpush]
  refine ⟨u, by rw [execAll_cons (.clr cp), ht], fun i hi => h.accepted hi, ?_, ?_⟩
  · rw [h.getElem?_count]
    exact h.at_invalid
  · rw [h.getElem?_count, ← openEmptyLine_params, ← hparams]
    exact h.at_capacity

/-- Settles O9: a reset edge answers a state with the reset values and the same capacity. -/
theorem resetEdgeGivesTheResetValues : Obligations.ResetEdgeGivesTheResetValues := by
  intro s c rest hi hr
  have h := atReset_takeReset (s.withPorts rest .nothing)
  exact ⟨_, step_of_rst hi hr, h.lstate, h.errk, h.pcause, h.n, h.regRead_status, h.regRead_count,
    h.regRead_olen, rfl, h.memRead_eq_zero, rfl, rfl⟩

/-- Settles O10: `State.resetWith` has the reset values, and `State.reset` is it at `resetParams`. -/
theorem resetStateHasTheResetValues : Obligations.ResetStateHasTheResetValues := by
  refine ⟨fun p => ?_, resetParams, resetParams_wellFormed, rfl⟩
  have h := atReset_resetWith p
  exact ⟨h.lstate, h.errk, h.pcause, h.n, h.regRead_status, h.regRead_count, h.regRead_olen, rfl,
    h.memRead_eq_zero⟩

/-- Settles O32: the reset values satisfy the invariant at every legal capacity. -/
theorem invariantHoldsAtReset : Obligations.InvariantHoldsAtReset :=
  ⟨fun p hp => (atReset_resetWith p).inv hp, (atReset_resetWith resetParams).inv resetParams_wellFormed⟩

end Sys2Proof.Machine
end

section
/-! SUPPORT. The buffer read port (20_memory.md R19): its gate, and what stands behind it. -/

namespace Sys2Proof.Machine

theorem memRead_committed {s : State} {a : Word} (hl : s.lstate = .doneOk) (ha : a.toNat < 7 * s.n) :
    memRead s a = s.cell a.toNat :=
  if_pos ⟨hl, ha⟩

theorem memRead_past_output {s : State} {a : Word} (ha : 7 * s.n ≤ a.toNat) : memRead s a = 0x00#8 :=
  if_neg fun ⟨_, hlt⟩ => hlt.not_ge ha

theorem memRead_hidden {s : State} (hl : s.lstate ≠ .doneOk) (a : Word) : memRead s a = 0x00#8 :=
  if_neg fun ⟨hok, _⟩ => hl hok

theorem olen_hidden {s : State} (hl : s.lstate ≠ .doneOk) : regRead s .olen = 0x00000000#32 :=
  if_neg hl

theorem readWindow_eq_false_iff {s : State} : readWindow s = false ↔ s.lstate ≠ .doneOk :=
  beq_eq_false_iff_ne

/-- Under the invariant every cell below `7 * N` shows what a PUSH wrote there, a lane value. -/
theorem State.Inv.cell_written {s : State} (h : s.Inv) {a : Nat} (ha : a < 7 * s.n) :
    s.buf.read? a = some (s.cell a) ∧ (s.cell a = Config.SP ∨ s.cell a = Config.TAB) := by
  obtain ⟨v, hv⟩ := Option.isSome_iff_exists.mp (h.buf_filled a ha)
  rw [State.cell_of_read hv]
  exact ⟨hv, h.buf_alphabet a v hv⟩

end Sys2Proof.Machine
end

section
/-! SUPPORT. A stream of edges without reset against the commands it gets accepted: which edges accept,
what a step does at an edge that accepts and at one that does not, and the run over the stream. -/

namespace Sys2Proof.Machine

theorem acceptedAt_eq_some_iff {c : PortCycle} {i : Instr} :
    acceptedAt c = some i ↔
      c.rst = false ∧ c.cmdValid = true ∧ c.cmdReady = true ∧ decode c.cmdWord = i := by
  simp [acceptedAt, and_assoc]

theorem noReset_cons {c : PortCycle} {cs : List PortCycle} :
    noReset (c :: cs) = true ↔ c.rst = false ∧ noReset cs = true := by
  simp [noReset]

theorem acceptsSteadily_cons {held : Presented} {c : PortCycle} {cs : List PortCycle} :
    acceptsSteadily held (c :: cs) = true ↔
      (∀ i, acceptedAt c = some i → steady held c = true) ∧
        acceptsSteadily (presentedAfter held c) cs = true := by
  cases hr : c.rst <;> cases hv : c.cmdValid <;> cases hy : c.cmdReady <;>
    simp [acceptsSteadily, acceptedAt, hr, hv, hy]

/-- An edge that accepts a command held stable runs it, with the edge over and nothing waiting. -/
theorem step_of_accepted {s : State} {c : PortCycle} {rest : List PortCycle} {i : Instr}
    (hi : s.inputs = c :: rest) (ha : acceptedAt c = some i) (hs : steady s.held c = true) :
    step s = exec i (s.withPorts rest .nothing) := by
  obtain ⟨hr, hv, hy, rfl⟩ := acceptedAt_eq_some_iff.mp ha
  simp [step, hi, portAction, hr, hv, hy, hs]

/-- An edge without reset that accepts nothing touches the ports alone. -/
theorem step_of_not_accepted {s : State} {c : PortCycle} {rest : List PortCycle}
    (hi : s.inputs = c :: rest) (hr : c.rst = false) (ha : acceptedAt c = none) :
    step s = .next (s.withPorts rest (presentedAfter s.held c)) := by
  have hq : (c.cmdValid && c.cmdReady) = false := by
    simpa [acceptedAt, hr] using ha
  have hkeep : portAction s.held c = .keep := by
    rw [portAction, hr, hq]
    rfl
  simp [step, hi, hkeep]

/-- The edges of a steady stream, run from a state with the stream on its ports, end in the state that
the accepted commands end in, with the rest of the ports to come. -/
theorem steps_of_execAll_accepted {cs : List PortCycle} {held : Presented} {s t : State}
    (rest : List PortCycle) (hr : noReset cs = true) (hs : acceptsSteadily held cs = true)
    (h : execAll (acceptedCommands cs) s = .next t) :
    steps cs.length (s.withPorts (cs ++ rest) held) =
      .next (t.withPorts rest (presentedAtEnd held cs)) := by
  induction cs generalizing held s with
  | nil =>
    cases h
    rfl
  | cons c cs ih =>
    obtain ⟨hrc, hrcs⟩ := noReset_cons.mp hr
    obtain ⟨hsc, hscs⟩ := acceptsSteadily_cons.mp hs
    cases ha : acceptedAt c with
    | none =>
      rw [acceptedCommands, List.filterMap_cons_none ha] at h
      have hstep : step (s.withPorts (c :: cs ++ rest) held) =
          .next (s.withPorts (cs ++ rest) (presentedAfter held c)) :=
        step_of_not_accepted rfl hrc ha
      exact (steps_succ _ hstep).trans (ih hrcs hscs h)
    | some i =>
      obtain ⟨u, hu⟩ := exists_effect i s
      rw [acceptedCommands, List.filterMap_cons_some ha, execAll_cons hu] at h
      have hstep : step (s.withPorts (c :: cs ++ rest) held) =
          .next (u.withPorts (cs ++ rest) (presentedAfter held c)) := by
        rw [step_of_accepted rfl ha (hsc i ha), presentedAfter_of_accepted held ha]
        exact (hu.withPorts (cs ++ rest) .nothing).exec_eq
      exact (steps_succ _ hstep).trans (ih hrcs hscs h)

end Sys2Proof.Machine
end

section
/-! The statements of 20_memory.md. -/

namespace Sys2Proof.Machine

/-- Settles O13: the accepted commands complete, and `steps_of_execAll_accepted`, by induction on the
stream, takes the edges to the state they end in. -/
theorem portTimingDoesNotMatter : Obligations.PortTimingDoesNotMatter := by
  intro cs rest s hi hr hs
  obtain ⟨t, ht, -⟩ := execAll_total (acceptedCommands cs) s
  have hports : s = s.withPorts (cs ++ rest) s.held := hi ▸ rfl
  refine ⟨t, ht, ?_⟩
  calc steps cs.length s
    _ = steps cs.length (s.withPorts (cs ++ rest) s.held) := congrArg _ hports
    _ = .next (t.withPorts rest (presentedAtEnd s.held cs)) := steps_of_execAll_accepted rest hr hs ht

/-- Settles O12: a step looks at an edge through `portAction` and `presentedAfter`, and neither reads
`ob_addr`, `reg_num` or `x_cp`, so the two steps are one by definition. -/
theorem readPortsHaveNoSideEffect : Obligations.ReadPortsHaveNoSideEffect :=
  fun _ _ _ _ _ _ => rfl

/-- Settles O30: the gate clause by clause, and behind it the invariant's written cells. -/
theorem bufferShowsCommittedOutputOnly : Obligations.BufferShowsCommittedOutputOnly := by
  intro s a
  refine ⟨memRead_committed, fun _ => memRead_past_output, fun hw => ?_, fun h hl ha => ?_⟩
  · have hl := readWindow_eq_false_iff.mp hw
    exact ⟨memRead_hidden hl a, olen_hidden hl⟩
  · rw [memRead_committed hl ha]
    exact h.cell_written ha

end Sys2Proof.Machine
end

section
/-! SUPPORT. Command words and commands (30_encoding.md R28, R29): the two directions of the encoding, what
the decoder reads from a number, and the rows of the opcode table. -/

namespace Sys2Proof

/-- Decoding gives back every command (30_encoding.md R31). -/
@[simp] theorem decode_encode (i : Instr) : decode (encode i) = i := by
  rw [decode, encode, opField_append, cpField_append, opcodeOf_opcodeBits, Instr.ofFields_self]

/-- No bit of a command word is lost in the command. -/
@[simp] theorem encode_decode (w : CmdWord) : encode (decode w) = w := by
  rw [encode, decode, Instr.ofFields_opcode, Instr.ofFields_cp, opcodeBits_opcodeOf,
    opField_append_cpField]

theorem decode_of_opField {w : CmdWord} {b : BitVec 2} (h : opField w = b) :
    decode w = .ofFields (opcodeOf b) (cpField w) := by
  rw [decode, h]

/-- The decoder refuses a number beyond 34 bits and reads every other one as a command word. -/
theorem decodeTableWord_eq (nbits w : Nat) :
    decodeTableWord nbits w =
      if w % 2 ^ nbits < 2 ^ 34 then some (decode (BitVec.ofNat 34 (w % 2 ^ nbits))) else none := by
  unfold decodeTableWord decodeBits
  split_ifs <;> rfl

theorem decodeTableWord_of_lt {w : Nat} (h : w < 2 ^ 34) :
    decodeTableWord 40 w = some (decode (BitVec.ofNat 34 w)) := by
  rw [decodeTableWord_eq, Nat.mod_eq_of_lt (by omega), if_pos h]

theorem decodeTableWord_encode (i : Instr) : decodeTableWord 40 (encode i).toNat = some i := by
  rw [decodeTableWord_of_lt (encode i).isLt, BitVec.ofNat_toNat, BitVec.setWidth_eq, decode_encode]

/-- A word masked with the row mask is the match value of the row it decodes to (30_encoding.md R29). -/
theorem and_rowMask (w : CmdWord) : w &&& rowMask = rowMatch (decode w).opcode := by
  have h := Laws.Rows.statement_of_all (decode w)
  rwa [Laws.Rows.Statement, encode_decode] at h

/-- The opcode of a row is the opcode field of its match value. -/
theorem opcodeOf_opField_rowMatch : Function.LeftInverse (fun w => opcodeOf (opField w)) rowMatch
  | .clr => rfl
  | .push => rfl
  | .endLine => rfl
  | .rsv => rfl

theorem rowMatch_injective : Function.Injective rowMatch := opcodeOf_opField_rowMatch.injective

end Sys2Proof

namespace Sys2Proof.Machine

/-- Only PUSH reads its `cp` field (30_encoding.md R30). -/
theorem exec_ofFields_ignores_cp {o : Opcode} (ho : o ≠ .push) (cp cp' : CodePoint) (s : State) :
    exec (.ofFields o cp) s = exec (.ofFields o cp') s := by
  cases o with
  | push => exact absurd rfl ho
  | clr => rfl
  | endLine => rfl
  | rsv => rfl

end Sys2Proof.Machine
end

section
/-! The statements of 30_encoding.md on the encoding and on a step that runs a command word. -/

namespace Sys2Proof.Machine

/-- Settles O3 by `decode_encode` and `encode_decode`: 40 bits are enough for the number of a command
word, and the decoder refuses what is left. -/
theorem decodeAndEncodeAgree : Obligations.DecodeAndEncodeAgree := by
  refine ⟨decodeTableWord_encode, fun w hw => ⟨_, decodeTableWord_of_lt hw, ?_⟩, fun w hge hlt => ?_⟩
  · rw [encode_decode, BitVec.toNat_ofNat, Nat.mod_eq_of_lt hw]
  · rw [decodeTableWord_eq, Nat.mod_eq_of_lt hlt, if_neg (Nat.not_lt.mpr hge)]

/-- Settles O1: each number is the encoding of its command. -/
theorem specWordsDecodeToTheirCommands : Obligations.SpecWordsDecodeToTheirCommands :=
  ⟨decodeTableWord_encode (.clr 0#32), decodeTableWord_encode (.push 0x41#32),
    decodeTableWord_encode (.push 0xFFFFFFFF#32), decodeTableWord_encode (.endLine 0#32),
    decodeTableWord_encode (.rsv 5#32), decodeTableWord_encode (.clr 0xFFFFFFFF#32)⟩

/-- Settles O2: by field from the decoder, by mask and match because different rows have different match
values. -/
theorem opcodeFieldSelectsTheCommand : Obligations.OpcodeFieldSelectsTheCommand := by
  refine ⟨fun w => ⟨decode_of_opField, decode_of_opField, decode_of_opField, decode_of_opField⟩,
    fun w o => ?_, rfl, rfl, rfl, rfl⟩
  calc w &&& rowMask = rowMatch o
    _ ↔ rowMatch (decode w).opcode = rowMatch o := by rw [and_rowMask]
    _ ↔ (decode w).opcode = o := rowMatch_injective.eq_iff

/-- Settles O6: the edge accepts its own word, and a word that waited was that one. -/
theorem stepRunsTheAcceptedCommand : Obligations.StepRunsTheAcceptedCommand := by
  intro s c rest hi hr hv hy hheld
  exact step_of_accepted hi (acceptedAt_eq_some_iff.mpr ⟨hr, hv, hy, rfl⟩)
    ((steady_iff s.held c).mpr hheld)

/-- Settles O7: `withFetchWord` puts an accepting edge for the word before the edges to come. -/
theorem fetchWordRunsAtTheNextStep : Obligations.FetchWordRunsAtTheNextStep := by
  intro s nbits w i h
  rw [decodeTableWord_eq, Option.ite_none_right_eq_some] at h
  obtain ⟨-, h⟩ := h
  refine step_of_accepted (s := s.withFetchWord nbits w) rfl
    (acceptedAt_eq_some_iff.mpr ⟨rfl, rfl, rfl, ?_⟩) rfl
  rw [commandCycle_cmdWord]
  exact Option.some.inj h

/-- Settles O19: with equal opcode fields only the `cp` fields can differ, and only PUSH reads its own. -/
theorem ignoredFieldHasNoEffect : Obligations.IgnoredFieldHasNoEffect := by
  intro w w' s heq hne
  have ho : opcodeOf (opField w') ≠ .push := fun h =>
    hne (heq.trans ((opcodeBits_opcodeOf (opField w')).symm.trans (congrArg opcodeBits h)))
  rw [decode_of_opField (w := w) heq]
  exact exec_ofFields_ignores_cp ho _ _ s

end Sys2Proof.Machine
end

section
/-! SUPPORT. The assembler (30_encoding.md R33, R34): the words its statements assemble to, and how it
reads a line of text. -/

namespace Sys2Proof.Machine

/-! ## Statements -/

theorem encode_push_toNat (cp : CodePoint) : (encode (.push cp)).toNat = 0x100000000 + cp.toNat := by
  simp [encode_toNat, Instr.opcode, opcodeBits, Instr.cp]

theorem encode_rsv_toNat (cp : CodePoint) : (encode (.rsv cp)).toNat = 0x300000000 + cp.toNat := by
  simp [encode_toNat, Instr.opcode, opcodeBits, Instr.cp]

/-- A negative number arrives in two's complement (30_encoding.md R30). -/
theorem codePointOfInt_toNat (v : Int) : ((codePointOfInt v).toNat : Int) = v % 2 ^ 32 := by
  rw [codePointOfInt, BitVec.toNat_ofInt]
  omega

theorem operandValue_decimal {v : Int} (hlo : -(2 ^ 31) ≤ v) (hhi : v ≤ 2 ^ 32 - 1) :
    operandValue (.decimal v) = some (codePointOfInt v) :=
  if_pos (AsmOperand.wellFormed_decimal.mpr ⟨hlo, hhi⟩)

theorem operandValue_decimal_outOfRange {v : Int} (h : v < -(2 ^ 31) ∨ 2 ^ 32 - 1 < v) :
    operandValue (.decimal v) = none :=
  if_neg fun hw => by
    obtain ⟨hlo, hhi⟩ := AsmOperand.wellFormed_decimal.mp hw
    omega

theorem assembleStmt_push (v : AsmOperand) :
    assembleStmt (.push v) = (operandValue v).map fun cp => [encode (.push cp)] := by
  unfold assembleStmt stmtCommands
  rw [Option.map_map]
  rfl

theorem assembleStmt_rsv (v : AsmOperand) :
    assembleStmt (.rsv (some v)) = (operandValue v).map fun cp => [encode (.rsv cp)] := by
  unfold assembleStmt stmtCommands
  rw [Option.map_map]
  rfl

/-- The words of a line: CLR, one PUSH a code point, END (30_encoding.md R34). -/
theorem lineCommands_map_encode (cps : List CodePoint) :
    (lineCommands cps).map encode =
      0x000000000#34 :: cps.map (fun cp => encode (.push cp)) ++ [0x200000000#34] := by
  have hclr : encode (.clr 0#32) = 0x000000000#34 := rfl
  have hend : encode (.endLine 0#32) = 0x200000000#34 := rfl
  simp [lineCommands, hclr, hend]

theorem allSome_map_some {α : Type} (xs : List α) : allSome (xs.map some) = some xs := by
  induction xs with
  | nil => rfl
  | cons x xs ih => rw [List.map_cons, allSome, ih, Option.map_some]

/-! ## Text -/

theorem skipBlanks_of_head {c : Char} (h : isBlank c = false) (cs : List Char) :
    skipBlanks (c :: cs) = c :: cs := by
  simp [skipBlanks, h]

/-- A line whose statement is read to its end assembles to the statement's words. -/
theorem assembleLine_of_readStmt {cs rest : List Char} {t : AsmStmt} {ws : List CmdWord}
    (hcs : atLineEnd cs = false)
    (hread : readStmt ((skipBlanks cs).takeWhile Char.isUpper)
      ((skipBlanks cs).dropWhile Char.isUpper) = .ok (t, rest))
    (hrest : atLineEnd rest = true) (ht : assembleStmt t = some ws) : assembleLine cs = .ok ws := by
  simp [assembleLine, parseLine, hcs, hread, hrest, ht]

/-- PUSH with an operand that fills the rest of the line. -/
theorem assembleLine_push {cs : List Char} {v : AsmOperand} {cp : CodePoint}
    (hread : readOperand (skipBlanks cs) = some (v, [])) (hv : operandValue v = some cp) :
    assembleLine (['P', 'U', 'S', 'H', ' '] ++ cs) = .ok [encode (.push cp)] := by
  refine assembleLine_of_readStmt (t := .push v) (rest := []) rfl ?_ rfl ?_
  · show readStmt ['P', 'U', 'S', 'H'] (' ' :: cs) = .ok (.push v, [])
    have hblank : skipBlanks (' ' :: cs) = skipBlanks cs := rfl
    rw [readStmt, hblank, hread]
    rfl
  · rw [assembleStmt_push, hv]
    rfl

theorem readOperand_char {c : Char} (hb : c ≠ '\\') (hq : c ≠ '\'') :
    readOperand ['\'', c, '\''] = some (.char c, []) := by
  simp [readOperand, hb, hq]

theorem decimalDigit_digitChar {d : Nat} (h : d < 10) : decimalDigit d.digitChar = some d := by
  interval_cases d <;> rfl

/-- The number that decimal digits write, the most significant first. -/
def decimalValue (ds : List Nat) : Nat := ds.foldl (fun a d => a * 10 + d) 0

/-- The digits of a decimal number are read back, whatever number stands before them. -/
theorem readDigits_digitChar {ds : List Nat} (h : ∀ d ∈ ds, d < 10) (acc : Nat) :
    readDigits decimalDigit 10 acc (ds.map Nat.digitChar) =
      (ds.foldl (fun a d => a * 10 + d) acc, []) := by
  induction ds generalizing acc with
  | nil => rfl
  | cons d ds ih =>
    obtain ⟨hd, hds⟩ := List.forall_mem_cons.mp h
    rw [List.map_cons, readDigits, decimalDigit_digitChar hd]
    exact ih hds _

theorem readNumber_digitChar {ds : List Nat} (hne : ds ≠ []) (h : ∀ d ∈ ds, d < 10) :
    readNumber decimalDigit 10 (ds.map Nat.digitChar) = some (decimalValue ds, []) := by
  cases ds with
  | nil => exact absurd rfl hne
  | cons d ds =>
    rw [decimalValue, ← readDigits_digitChar h]
    simp [readNumber, decimalDigit_digitChar (h d (by simp))]

theorem isBlank_iff {c : Char} : isBlank c = true ↔ c = ' ' ∨ c = '\t' := by
  simp [isBlank]

/-- No blank stands before digits. -/
theorem skipBlanks_of_decimalDigits {cs : List Char} (h : ∀ c ∈ cs, (decimalDigit c).isSome = true) :
    skipBlanks cs = cs := by
  cases cs with
  | nil => rfl
  | cons c cs =>
    refine skipBlanks_of_head (Bool.eq_false_iff.mpr fun hb => ?_) cs
    rcases isBlank_iff.mp hb with rfl | rfl
    · exact absurd (h ' ' (by simp)) (by decide)
    · exact absurd (h '\t' (by simp)) (by decide)

/-- Text of digits alone is in none of the other forms of an operand. -/
theorem readOperand_of_decimalDigits {cs : List Char} (h : ∀ c ∈ cs, (decimalDigit c).isSome = true) :
    readOperand cs = (readNumber decimalDigit 10 cs).map fun r => (.decimal (r.1 : Int), r.2) := by
  unfold readOperand
  split
  · exact absurd (h '\'' (by simp)) (by decide)
  · exact absurd (h '\'' (by simp)) (by decide)
  · exact absurd (h 'x' (by simp)) (by decide)
  · exact absurd (h '-' (by simp)) (by decide)
  · rfl

theorem readString_closed {cs : List Char} (h : ∀ c ∈ cs, c ≠ '\\' ∧ c ≠ doubleQuote) :
    readString (cs ++ [doubleQuote]) = some (cs, []) := by
  induction cs with
  | nil => rfl
  | cons c cs ih =>
    obtain ⟨⟨hb, hq⟩, hcs⟩ := List.forall_mem_cons.mp h
    rw [List.cons_append, readString]
    · simp [hb, hq, ih hcs]
    · simp [hb]

/-! ## Lines -/

/-- PUSH with a decimal number that fits the `cp` field. -/
theorem assembleLine_push_decimal {ds : List Nat} (hne : ds ≠ []) (h : ∀ d ∈ ds, d < 10)
    (hlt : decimalValue ds < 2 ^ 32) :
    assembleLine (['P', 'U', 'S', 'H', ' '] ++ ds.map Nat.digitChar) =
      .ok [encode (.push (codePointOfInt (decimalValue ds)))] := by
  have hdigits : ∀ c ∈ ds.map Nat.digitChar, (decimalDigit c).isSome = true := by
    rw [List.forall_mem_map]
    intro d hd
    rw [decimalDigit_digitChar (h d hd)]
    rfl
  refine assembleLine_push ?_ (operandValue_decimal (by omega) (by omega))
  rw [skipBlanks_of_decimalDigits hdigits, readOperand_of_decimalDigits hdigits,
    readNumber_digitChar hne h]
  rfl

/-- LINE with a string free of escapes. -/
theorem assembleLine_string {cs : List Char} (h : ∀ c ∈ cs, c ≠ '\\' ∧ c ≠ doubleQuote) :
    assembleLine (['L', 'I', 'N', 'E', ' ', doubleQuote] ++ cs ++ [doubleQuote]) =
      .ok ((lineCommands (cs.map codePointOfChar)).map encode) := by
  have hread : readLineArgument (' ' :: doubleQuote :: (cs ++ [doubleQuote])) =
      some (.lineString cs, []) := by
    show (readString (cs ++ [doubleQuote])).map _ = _
    rw [readString_closed h]
    rfl
  refine assembleLine_of_readStmt (t := .lineString cs) (rest := []) rfl ?_ rfl rfl
  show readStmt ['L', 'I', 'N', 'E'] (' ' :: doubleQuote :: (cs ++ [doubleQuote])) = _
  rw [readStmt, hread]
  rfl

end Sys2Proof.Machine
end

section
/-! The statements of 30_encoding.md on the assembler. -/

namespace Sys2Proof.Machine

/-- Settles O4, form by form: `operandValue` reduces each operand, and the PUSH or RSV of its value
carries it above the opcode. -/
theorem assemblerWordsFollowTheirStatements : Obligations.AssemblerWordsFollowTheirStatements := by
  refine ⟨rfl, rfl, rfl, fun v hlo hhi => ?_, fun v h => ?_, fun v => ?_, fun c => ?_, fun cs => ?_,
    fun vs => ?_⟩
  · have hv := operandValue_decimal hlo hhi
    refine ⟨_, _, by rw [assembleStmt_push, hv]; rfl, ?_, by rw [assembleStmt_rsv, hv]; rfl, ?_⟩
    · rw [encode_push_toNat, Nat.cast_add, codePointOfInt_toNat]
      rfl
    · rw [encode_rsv_toNat, Nat.cast_add, codePointOfInt_toNat]
      rfl
  · have hv := operandValue_decimal_outOfRange h
    exact ⟨by rw [assembleStmt_push, hv]; rfl, by rw [assembleStmt_rsv, hv]; rfl⟩
  · exact ⟨_, rfl, by rw [encode_push_toNat, BitVec.toNat_ofNat]⟩
  · exact ⟨_, rfl, by rw [encode_push_toNat, codePointOfChar_toNat]⟩
  · refine ⟨_, congrArg some (lineCommands_map_encode (cs.map codePointOfChar)), ?_⟩
    simp [encode_push_toNat, codePointOfChar_toNat]
  · have hvs : allSome ((vs.map .hex).map operandValue) = some (vs.map (BitVec.ofNat 32)) := by
      simpa [operandValue, Function.comp_def] using allSome_map_some (vs.map (BitVec.ofNat 32))
    refine ⟨(vs.map (BitVec.ofNat 32)).map fun cp => encode (.push cp), ?_, ?_⟩
    · rw [assembleStmt, stmtCommands, hvs]
      exact congrArg some (lineCommands_map_encode (vs.map (BitVec.ofNat 32)))
    · simp [encode_push_toNat]

/-- Settles O5, line by line: each is read to its end as the statement it spells, a comment as the end. -/
theorem assemblerReadsItsSpelling : Obligations.AssemblerReadsItsSpelling := by
  refine ⟨fun c hb hq => assembleLine_push (readOperand_char hb hq) rfl, fun ds hne hds hlt => ?_,
    fun cs => assembleLine_string, fun comment => ⟨?_, ?_, ?_, rfl⟩⟩
  · refine ⟨_, assembleLine_push_decimal hne hds hlt, ?_⟩
    have hcp := codePointOfInt_toNat (decimalValue ds)
    rw [encode_push_toNat]
    unfold decimalValue at hcp ⊢
    omega
  · exact assembleLine_of_readStmt (t := .clr) (rest := ';' :: comment) rfl rfl rfl rfl
  · exact assembleLine_of_readStmt (t := .endLine) (rest := ';' :: comment) rfl rfl rfl rfl
  · exact assembleLine_of_readStmt (t := .rsv none) (rest := ';' :: comment) rfl rfl rfl rfl

end Sys2Proof.Machine
end

section
/-! SUPPORT. The bits of EXPAND (40_expander.md R35 to R39): what validity says of a code point's bits, and
the block as those bits in descending order. -/

namespace Sys2Proof.Machine

/-! ## Validity -/

/-- Validity by its definition: no bit above bit 6. -/
theorem valid_iff_upper_bits (cp : CodePoint) : valid cp = true ↔ cp.extractLsb' 7 25 = 0#25 :=
  beq_iff_eq

/-- Read as two's complement, a negative code point is at least `2 ^ 31` unsigned, so it is invalid. -/
theorem valid_iff_toInt (cp : CodePoint) : valid cp = true ↔ 0 ≤ cp.toInt ∧ cp.toInt ≤ 127 := by
  have hlt := cp.isLt
  rw [valid_iff_toNat, BitVec.toInt_eq_toNat_cond]
  split <;> omega

/-- No bit above bit 6 is set in a valid code point. -/
theorem getLsbD_of_valid {cp : CodePoint} (h : valid cp = true) {k : Nat} (hk : 7 ≤ k) :
    cp.getLsbD k = false := by
  have h127 := (valid_iff_toNat cp).mp h
  refine Nat.testBit_lt_two_pow ?_
  calc cp.toNat < 2 ^ 7 := by omega
    _ ≤ 2 ^ k := Nat.pow_le_pow_right (by decide) hk

/-! ## Lanes -/

/-- The masks in descending order: `0x40`, `0x20`, …, `0x01`. -/
theorem mask_eq_ofNat {j : Nat} (h : j ≤ 6) : mask j = BitVec.ofNat 32 (2 ^ (6 - j)) := by
  apply BitVec.eq_of_toNat_eq
  rw [mask_eq_twoPow h, BitVec.toNat_twoPow, BitVec.toNat_ofNat]

theorem bit_byte_eq_sp_iff (b : Bool) :
    (if b then Config.SP else Config.TAB) = Config.SP ↔ b = true := by
  cases b <;> decide

theorem lane_eq_sp_iff (cp : CodePoint) {j : Nat} (h : j ≤ 6) :
    lane cp j = Config.SP ↔ cp.getLsbD (6 - j) = true := by
  rw [lane_eq_bit cp h, bit_byte_eq_sp_iff]

theorem lanes_sp_or_tab {cp : CodePoint} {b : Byte} (h : b ∈ lanes cp) :
    b = Config.SP ∨ b = Config.TAB := by
  obtain ⟨j, -, rfl⟩ := mem_lanes h
  exact lane_sp_or_tab cp j

/-- A block is the bits 6 to 0 in descending order. -/
theorem lanes_eq_map_bits (cp : CodePoint) :
    lanes cp =
      (List.range 7).reverse.map fun k => if cp.getLsbD k then Config.SP else Config.TAB :=
  calc lanes cp
    _ = (List.range 7).map (lane cp) := rfl
    _ = (List.range 7).map fun j => if cp.getLsbD (6 - j) then Config.SP else Config.TAB :=
      List.map_congr_left fun _ hj => lane_eq_bit cp (Nat.le_of_lt_succ (List.mem_range.mp hj))
    _ = (List.range 7).reverse.map fun k => if cp.getLsbD k then Config.SP else Config.TAB := rfl

/-- One SP a set bit. -/
theorem lanes_count_sp (cp : CodePoint) :
    (lanes cp).count Config.SP = ((List.range 7).filter fun k => cp.getLsbD k).length := by
  rw [lanes_eq_map_bits, List.count_eq_countP, List.countP_map, List.countP_reverse,
    List.countP_eq_length_filter]
  congr 2
  funext k
  exact Bool.eq_iff_iff.mpr (beq_iff_eq.trans (bit_byte_eq_sp_iff _))

/-- Equal blocks have equal lanes, so equal bits 6 to 0; a valid code point has no others. -/
theorem eq_of_lanes_eq {cp cp' : CodePoint} (h : valid cp = true) (h' : valid cp' = true)
    (heq : lanes cp = lanes cp') : cp = cp' := by
  apply BitVec.eq_of_getLsbD_eq
  intro k _
  rcases Nat.lt_or_ge k 7 with hk | hk
  · have hlane : lane cp (6 - k) = lane cp' (6 - k) := by
      rw [← Option.some_inj, ← lanes_getElem? cp (by omega), heq, lanes_getElem? cp' (by omega)]
    have hbit : 6 - (6 - k) = k := by omega
    rw [Bool.eq_iff_iff, ← hbit, ← lane_eq_sp_iff cp (by omega), hlane, lane_eq_sp_iff cp' (by omega)]
  · rw [getLsbD_of_valid h hk, getLsbD_of_valid h' hk]

/-! ## The direct port -/

theorem xOk_eq_valid (cp : CodePoint) : xOk cp = valid cp := by
  cases h : valid cp <;> simp [xOk, h]

theorem xChars_of_invalid {cp : CodePoint} (h : valid cp = false) : xChars cp = 0#56 := by
  rw [xChars, expand_of_invalid h]

theorem xChars_of_valid {cp : CodePoint} (h : valid cp = true) :
    xChars cp =
      lane cp 6 ++ lane cp 5 ++ lane cp 4 ++ lane cp 3 ++ lane cp 2 ++ lane cp 1 ++ lane cp 0 := by
  rw [xChars, expand_of_valid h]

/-- The byte at the low end of a packed block is cut off. -/
theorem extractLsb'_append_byte_succ {w : Nat} (x : BitVec w) (b : Byte) (j : Nat) :
    (x ++ b).extractLsb' (8 * (j + 1)) 8 = x.extractLsb' (8 * j) 8 :=
  BitVec.extractLsb'_append_eq_of_le (Nat.le_add_left 8 (8 * j))

/-- Seven lanes side by side: `j` lanes are cut off below, and the lowest byte left is lane `j`. -/
theorem packed_lanes_byte (cp : CodePoint) {j : Nat} (hj : j ≤ 6) :
    BitVec.extractLsb' (8 * j) 8
      (lane cp 6 ++ lane cp 5 ++ lane cp 4 ++ lane cp 3 ++ lane cp 2 ++ lane cp 1 ++ lane cp 0) =
        lane cp j := by
  interval_cases j <;>
    simp only [extractLsb'_append_byte_succ, Nat.mul_zero, BitVec.extractLsb'_append_eq_right,
      BitVec.extractLsb'_eq_self]

theorem xChars_byte {cp : CodePoint} (h : valid cp = true) {j : Nat} (hj : j ≤ 6) :
    (xChars cp).extractLsb' (8 * j) 8 = lane cp j := by
  rw [xChars_of_valid h]
  exact packed_lanes_byte cp hj

end Sys2Proof.Machine
end

section
/-! The statements of 40_expander.md. -/

namespace Sys2Proof.Machine

/-- Settles O28: a block is `lanes cp`, and its laws are those of the lanes. -/
theorem expandObeysItsLaws : Obligations.ExpandObeysItsLaws := by
  refine ⟨fun cp blk he => ?_, fun cp cp' h h' heq => ?_⟩
  · obtain ⟨-, rfl⟩ := expand_eq_some_iff.mp he
    refine ⟨lanes_length cp, fun b => lanes_sp_or_tab, fun j hj => ?_, lanes_count_sp cp⟩
    rw [lanes_getElem? cp hj, Option.some_inj, lane_eq_sp_iff cp hj]
  · rw [expand_of_valid h, expand_of_valid h'] at heq
    exact eq_of_lanes_eq h h' (Option.some.inj heq)

/-- Settles O29: the outputs are `xOk` and `xChars` of the code point present, and a step looks at no
read port. -/
theorem expanderPortPacksTheLanes : Obligations.ExpanderPortPacksTheLanes :=
  fun s c => ⟨xOk_eq_valid c.xCp, xChars_of_invalid, fun h _ => xChars_byte h,
    fun rest => readPortsHaveNoSideEffect s c rest c.obAddr c.regNum⟩

/-- Settles O26: one lemma a reading, and bit 7 is above bit 6. -/
theorem validityIsTheAsciiRange : Obligations.ValidityIsTheAsciiRange :=
  ⟨valid_iff_upper_bits, valid_iff_toNat, valid_iff_toInt,
    fun _ h => getLsbD_of_valid h (Nat.le_refl 7), rfl, rfl, rfl, rfl⟩

/-- Settles O27: the block of a valid code point is `lanes cp`, and each lane shows the bit of its mask. -/
theorem laneCarriesItsBit : Obligations.LaneCarriesItsBit :=
  fun cp => ⟨expand_of_invalid,
    fun h => ⟨lanes cp, expand_of_valid h, lanes_length cp, fun _ => lanes_getElem? cp⟩,
    fun _ hj => ⟨mask_eq_ofNat hj, lane_eq_bit cp hj⟩⟩

end Sys2Proof.Machine
end

section
/-! SUPPORT. One command in one line state (41_line_commands.md R40 to R44): that its effect is one, where
it takes LSTATE, what END and RSV keep, and the cells after an accepted block. -/

namespace Sys2Proof.Machine

/-! ## The effect of a command -/

/-- A command has one effect in a state, so each case of `Effect` that applies is all it does. -/
theorem Effect.unique {i : Instr} {s t u : State} (h : Effect s i t) (h' : Effect s i u) : t = u := by
  have heq := h.exec_eq.symm.trans h'.exec_eq
  cases heq
  rfl

/-- With no line open, LSTATE is neither OPEN nor STOP. -/
theorem LState.lineOpen_eq_false_iff {l : LState} :
    l.lineOpen = false ↔ l ≠ .openLine ∧ l ≠ .stop := by
  simp [LState.lineOpen]

/-- PUSH stops an open line on an invalid code point or a full buffer, and else keeps LSTATE. -/
theorem Effect.push_lstate {cp : CodePoint} {s t : State} (h : Effect s (.push cp) t) :
    t.lstate =
      if s.lstate = .openLine ∧ (valid cp = false ∨ s.n = s.params.maxc) then .stop else s.lstate := by
  cases h with
  | pushInvalid _ ho hv => simp [ho, hv]
  | pushFull _ ho hv hn => simp [ho, hn]
  | pushAccepted _ ho hv hn => simp [hv, hn]
  | pushStopped _ ho => simp [ho]
  | pushClosed _ ho => simp [(LState.lineOpen_eq_false_iff.mp ho).1]

/-- END closes an open line in DONE_OK and a stopped one in DONE_ERR, and else keeps LSTATE. -/
theorem Effect.endLine_lstate {cp : CodePoint} {s t : State} (h : Effect s (.endLine cp) t) :
    t.lstate =
      if s.lstate = .openLine then .doneOk else if s.lstate = .stop then .doneErr else s.lstate := by
  cases h with
  | endCommits _ ho => simp [ho]
  | endDiscards _ ho => simp [ho]
  | endClosed _ ho => simp [LState.lineOpen_eq_false_iff.mp ho]

/-- END keeps ERRK, N and BUF, whatever it does to the line. -/
theorem Effect.endLine_keeps {cp : CodePoint} {s t : State} (h : Effect s (.endLine cp) t) :
    t.errk = s.errk ∧ t.n = s.n ∧ t.buf = s.buf := by
  cases h with
  | endCommits _ ho => exact ⟨rfl, rfl, rfl⟩
  | endDiscards _ ho => exact ⟨rfl, rfl, rfl⟩
  | endClosed _ ho => simp

/-- What is left to say of a protocol violation is PCAUSE: it stores nothing. -/
theorem storesNothing_raiseProtocolViolation (c : PCause) (s : State) :
    storesNothing s (raiseProtocolViolation c s) :=
  storesNothing_of_eq (by simp) (by simp) (by simp [sameElsewhere])

/-- A line error stores nothing (60_exceptions.md R47). -/
theorem storesNothing_raiseLineError (k : ErrKind) (s : State) :
    storesNothing s (raiseLineError k s) :=
  storesNothing_of_eq rfl rfl ⟨rfl, rfl, rfl, rfl⟩

/-! ## Cells and reads -/

theorem acceptBlock_cell_inside (cp : CodePoint) (s : State) {j : Nat} (hj : j ≤ 6) :
    (acceptBlock (lanes cp) s).cell (7 * s.n + j) = lane cp j :=
  State.cell_of_read (acceptBlock_read?_inside cp s hj)

theorem acceptBlock_cell_outside (cp : CodePoint) (s : State) {a : Nat}
    (ha : a < 7 * s.n ∨ 7 * s.n + 7 ≤ a) : (acceptBlock (lanes cp) s).cell a = s.cell a := by
  rw [State.cell, acceptBlock_read?_outside cp s ha, acceptBlock_draw, State.cell]

theorem openEmptyLine_status (s : State) : regRead (openEmptyLine s) .status = 0x00000001#32 := by
  rw [regRead, statusWord, statusFields, openEmptyLine_pcause, openEmptyLine_errk, openEmptyLine_lstate]
  rfl

theorem olen_committed {s : State} (hl : s.lstate = .doneOk) :
    regRead s .olen = BitVec.ofNat 32 (7 * s.n) :=
  if_pos hl

/-- A buffer read looks at LSTATE, at N, and at the one cell, which the gate lets through below `7 * N`. -/
theorem memRead_congr {s t : State} {a : Word} (hl : s.lstate = t.lstate) (hn : s.n = t.n)
    (hc : a.toNat < 7 * s.n → s.cell a.toNat = t.cell a.toNat) : memRead s a = memRead t a := by
  by_cases hg : s.lstate = .doneOk ∧ a.toNat < 7 * s.n
  · rw [memRead_committed hg.1 hg.2, memRead_committed (hl ▸ hg.1) (hn ▸ hg.2), hc hg.2]
  · unfold memRead
    rw [← hl, ← hn, if_neg hg, if_neg hg]

end Sys2Proof.Machine
end

section
/-! SUPPORT. Two lines alike (41_line_commands.md R45, determinism): the relation that CLR establishes
between any two states of one capacity, that every command keeps, and that no read sees behind. -/

namespace Sys2Proof.Machine

/-- The two states agree in the line's registers and in the cells below `7 * N`; what stands in the other
cells, and which of the cells were written, is left open. -/
structure SameLine (s t : State) : Prop where
  lstate : s.lstate = t.lstate
  errk : s.errk = t.errk
  pcause : s.pcause = t.pcause
  n : s.n = t.n
  params : s.params = t.params
  cells : ∀ a, a < 7 * s.n → s.cell a = t.cell a

/-- CLR makes any two lines of one capacity alike: no cell is below `7 * 0`. -/
theorem sameLine_openEmptyLine {s t : State} (h : s.params = t.params) :
    SameLine (openEmptyLine s) (openEmptyLine t) :=
  ⟨rfl, rfl, rfl, rfl, h, by simp⟩

theorem SameLine.raiseLineError {s t : State} (h : SameLine s t) (k : ErrKind) :
    SameLine (raiseLineError k s) (raiseLineError k t) :=
  ⟨rfl, rfl, h.pcause, h.n, h.params, h.cells⟩

theorem SameLine.withLState {s t : State} (h : SameLine s t) (l : LState) :
    SameLine (s.withLState l) (t.withLState l) :=
  ⟨rfl, h.errk, h.pcause, h.n, h.params, h.cells⟩

theorem SameLine.withPcause {s t : State} (h : SameLine s t) (c : PCause) :
    SameLine (s.withPcause c) (t.withPcause c) :=
  ⟨h.lstate, h.errk, rfl, h.n, h.params, h.cells⟩

/-- Both record the violation, or neither does. -/
theorem SameLine.raiseProtocolViolation {s t : State} (h : SameLine s t) (c : PCause) :
    SameLine (raiseProtocolViolation c s) (raiseProtocolViolation c t) := by
  unfold Machine.raiseProtocolViolation
  rw [← h.pcause]
  split
  · exact h.withPcause c
  · exact h

/-- The same block goes to the same cells, and the cells below it were alike. -/
theorem SameLine.acceptBlock {s t : State} (h : SameLine s t) (cp : CodePoint) :
    SameLine (acceptBlock (lanes cp) s) (acceptBlock (lanes cp) t) := by
  refine ⟨h.lstate, h.errk, h.pcause, congrArg (· + 1) h.n, h.params, fun a ha => ?_⟩
  rw [acceptBlock_n] at ha
  rcases Nat.lt_or_ge a (7 * s.n) with hlt | hge
  · rw [acceptBlock_cell_outside cp s (.inl hlt), acceptBlock_cell_outside cp t (.inl (h.n ▸ hlt)),
      h.cells a hlt]
  · obtain ⟨j, rfl⟩ := Nat.exists_eq_add_of_le hge
    have hj : j ≤ 6 := by omega
    rw [acceptBlock_cell_inside cp s hj, h.n, acceptBlock_cell_inside cp t hj]

/-- The same command does the same to two lines alike. -/
theorem Effect.sameLine {i : Instr} {s s' t : State} (he : Effect s i t) (h : SameLine s s') :
    ∃ t', Effect s' i t' ∧ SameLine t t' := by
  cases he with
  | clr cp => exact ⟨_, .clr cp, sameLine_openEmptyLine h.params⟩
  | pushInvalid cp ho hv => exact ⟨_, .pushInvalid cp (h.lstate ▸ ho) hv, h.raiseLineError _⟩
  | pushFull cp ho hv hn =>
    exact ⟨_, .pushFull cp (h.lstate ▸ ho) hv (h.n ▸ h.params ▸ hn), h.raiseLineError _⟩
  | pushAccepted cp ho hv hn =>
    exact ⟨_, .pushAccepted cp (h.lstate ▸ ho) hv (h.n ▸ h.params ▸ hn), h.acceptBlock cp⟩
  | pushStopped cp ho => exact ⟨_, .pushStopped cp (h.lstate ▸ ho), h⟩
  | pushClosed cp ho => exact ⟨_, .pushClosed cp (h.lstate ▸ ho), h.raiseProtocolViolation _⟩
  | endCommits cp ho => exact ⟨_, .endCommits cp (h.lstate ▸ ho), h.withLState _⟩
  | endDiscards cp ho => exact ⟨_, .endDiscards cp (h.lstate ▸ ho), h.withLState _⟩
  | endClosed cp ho => exact ⟨_, .endClosed cp (h.lstate ▸ ho), h.raiseProtocolViolation _⟩
  | rsv cp => exact ⟨_, .rsv cp, h.raiseProtocolViolation _⟩

/-- Every register is made of the fields that agree. -/
theorem SameLine.regRead_eq {s t : State} (h : SameLine s t) (r : Register) :
    regRead s r = regRead t r := by
  cases r with
  | status => simp only [regRead, statusWord, statusFields, h.lstate, h.errk, h.pcause]
  | count => simp only [regRead, h.n]
  | olen => simp only [regRead, h.lstate, h.n]
  | cap => simp only [regRead, h.params]

/-- No read tells two lines alike apart. -/
theorem SameLine.sameReads {s t : State} (h : SameLine s t) : sameReads s t :=
  ⟨h.regRead_eq, fun a => memRead_congr h.lstate h.n (h.cells a.toNat)⟩

end Sys2Proof.Machine
end

section
/-! SUPPORT. What the host reads of a whole line (41_line_commands.md R45): the committed output as the
blocks of its characters, and PCAUSE. -/

namespace Sys2Proof.Machine

/-- Bytes that are lane `j` of character `i` at index `7 * i + j` are, in order, the characters' blocks. -/
theorem map_range_eq_flatMap_lanes {cps : List CodePoint} {f : Nat → Byte}
    (h : ∀ (i : Nat) (c : CodePoint) (j : Nat), cps[i]? = some c → j ≤ 6 →
      f (7 * i + j) = lane c j) :
    (List.range (7 * cps.length)).map f = cps.flatMap lanes := by
  induction cps generalizing f with
  | nil => rfl
  | cons c cps ih =>
    have hfirst : (List.range 7).map f = lanes c :=
      List.map_congr_left fun j hj => by
        simpa using h 0 c j rfl (Nat.le_of_lt_succ (List.mem_range.mp hj))
    have hrest : (List.range (7 * cps.length)).map (fun a => f (7 + a)) = cps.flatMap lanes :=
      ih fun i d j hd hj => by
        rw [← h (i + 1) d j hd hj, Nat.mul_succ, Nat.add_comm (7 * i) 7, Nat.add_assoc]
    rw [List.length_cons, Nat.mul_succ, Nat.add_comm, List.range_add, List.map_append, List.map_map,
      hfirst, List.flatMap_cons, ← hrest]
    rfl

section
variable {s : State} {cps : List CodePoint} (hl : s.lstate = .doneOk) (hh : Holds s cps)
  (hp : s.params.wellFormed = true) (hn : cps.length ≤ s.params.maxc)
include hl hh hp hn

theorem Holds.olen_toNat : (regRead s .olen).toNat = 7 * cps.length := by
  rw [Machine.olen_toNat hp (hh.count ▸ hn), if_pos hl, hh.count]

/-- Lane `j` of character `i` at address `7 * i + j`, which a word holds uncut (00_scope.md R4). -/
theorem Holds.memRead_lane (i : Nat) (c : CodePoint) (j : Nat) (hc : cps[i]? = some c) (hj : j ≤ 6) :
    memRead s (BitVec.ofNat 32 (7 * i + j)) = lane c j := by
  have hi := (List.getElem?_eq_some_iff.mp hc).1
  have hmax := (Params.wellFormed_iff.mp hp).2
  have hcount := hh.count
  have ha : (BitVec.ofNat 32 (7 * i + j)).toNat = 7 * i + j := by
    rw [BitVec.toNat_ofNat, Nat.mod_eq_of_lt (by omega)]
  rw [memRead_committed hl (by omega), ha, State.cell_of_read (hh.cells i c j hc hj)]

theorem Holds.readOutput_eq : readOutput s = cps.flatMap lanes := by
  rw [readOutput, hh.olen_toNat hl hp hn]
  exact map_range_eq_flatMap_lanes (hh.memRead_lane hl hp hn)

end

/-- The output of a line of valid characters that fit. -/
theorem execAll_line_output {cps : List CodePoint} {s : State} (hp : s.params.wellFormed = true)
    (hv : ∀ c ∈ cps, valid c = true) (hn : cps.length ≤ s.params.maxc) :
    ∃ t, execAll (lineCommands cps) s = .next t ∧ readOutput t = cps.flatMap lanes := by
  obtain ⟨t, ht, hl, -, -, hh, hparams⟩ := execAll_line_fits hv hn
  exact ⟨t, ht, hh.readOutput_eq hl (hparams ▸ hp) (hparams ▸ hn)⟩

/-- A whole line completes without a protocol violation, however it ends. -/
theorem execAll_line_pcause (cps : List CodePoint) (s : State) :
    ∃ t, execAll (lineCommands cps) s = .next t ∧ t.pcause = .none := by
  rcases line_fits_or_fails cps s.params.maxc with ⟨hv, hn⟩ | ⟨k, c, hc, hv, hn, hbad⟩
  · obtain ⟨t, ht, -, -, hpc, -⟩ := execAll_line_fits hv hn
    exact ⟨t, ht, hpc⟩
  · obtain ⟨t, ht, -, -, hpc, -⟩ := execAll_line_fails hc hv hn hbad
    exact ⟨t, ht, hpc⟩

/-- In DONE_ERR the host reads no output. -/
theorem no_output_of_doneErr {s : State} (hl : s.lstate = .doneErr) :
    regRead s .olen = 0x00000000#32 ∧ ∀ a, memRead s a = 0x00#8 := by
  have hne : s.lstate ≠ .doneOk := by simp [hl]
  exact ⟨olen_hidden hne, memRead_hidden hne⟩

end Sys2Proof.Machine
end

section
/-! The statements of 41_line_commands.md. -/

namespace Sys2Proof.Machine

/-- Settles O15: in each line state the one case of `Effect` that applies. -/
theorem pushFollowsTheLineState : Obligations.PushFollowsTheLineState := by
  refine ⟨encode_push_toNat, fun cp s => ?_⟩
  obtain ⟨t, ht, he⟩ := exec_total (.push cp) s
  refine ⟨t, ht, he.sameElsewhere, fun ho hv hn => ?_, fun ho hv => ?_, fun ho hv hn => ?_,
    fun ho => he.unique (.pushStopped cp ho), fun ho => ?_, fun hp hn j hj => ?_⟩
  · obtain rfl := he.unique (.pushAccepted cp ho hv hn)
    exact ⟨rfl, ho, rfl, rfl,
      fun j hj => ⟨acceptBlock_read?_inside cp s hj, acceptBlock_cell_inside cp s hj⟩,
      fun a ha => ⟨acceptBlock_read?_outside cp s ha, acceptBlock_cell_outside cp s ha⟩⟩
  · obtain rfl := he.unique (.pushInvalid cp ho hv)
    exact ⟨rfl, rfl, rfl, storesNothing_raiseLineError _ s⟩
  · obtain rfl := he.unique (.pushFull cp ho hv hn)
    exact ⟨rfl, rfl, rfl, storesNothing_raiseLineError _ s⟩
  · obtain rfl := he.unique (.pushClosed cp ho)
    exact ⟨raiseProtocolViolation_lstate s _, raiseProtocolViolation_errk s _,
      raiseProtocolViolation_pcause s _, storesNothing_raiseProtocolViolation _ s⟩
  · have hmax := (Params.wellFormed_iff.mp hp).2
    omega

/-- Settles O16: END keeps ERRK, N and BUF by `Effect.endLine_keeps`, and the gate of the buffer follows
from the LSTATE of each case. -/
theorem endCommitsOrDiscardsTheLine : Obligations.EndCommitsOrDiscardsTheLine := by
  refine ⟨rfl, fun s => ⟨(openEmptyLine s).withLState .doneOk, ?_, rfl, rfl, rfl⟩, fun cp s => ?_⟩
  · rw [execAll_cons (.clr _), execAll_cons (.endCommits _ rfl), execAll_nil]
  · obtain ⟨t, ht, he⟩ := exec_total (.endLine cp) s
    obtain ⟨herrk, hn, hb⟩ := he.endLine_keeps
    refine ⟨t, ht, herrk, storesNothing_of_eq hn hb he.sameElsewhere, fun ho => ?_, fun ho => ?_,
      fun ho => ?_⟩
    · obtain rfl := he.unique (.endCommits cp ho)
      exact ⟨rfl, rfl, olen_committed rfl, fun a =>
        ⟨fun ha => memRead_committed rfl ha, fun ha => memRead_past_output ha⟩⟩
    · obtain rfl := he.unique (.endDiscards cp ho)
      exact ⟨rfl, rfl, no_output_of_doneErr rfl⟩
    · obtain rfl := he.unique (.endClosed cp ho)
      exact ⟨raiseProtocolViolation_lstate s _, raiseProtocolViolation_pcause s _⟩

/-- Settles O35: the line completes in one state, which `execAll_line_fits` describes in the first case
and `execAll_line_fails`, at the first bad index, in the other two. -/
theorem lineResultIsAllOrNothing : Obligations.LineResultIsAllOrNothing := by
  intro cps s hp
  obtain ⟨t, ht, hpc⟩ := execAll_line_pcause cps s
  refine ⟨t, ht, hpc, fun hv hn => ?_, fun k c hc hbad hv hn => ?_, fun hlong hv => ?_⟩
  · obtain ⟨u, hu, hl, hk, -, hh, hparams⟩ := execAll_line_fits hv hn
    obtain rfl := execAll_unique ht hu
    rw [← hparams] at hp hn
    exact ⟨hl, hk, hh.count, hh.olen_toNat hl hp hn, hh.memRead_lane hl hp hn,
      fun a ha => memRead_past_output (hh.count ▸ ha), hh.readOutput_eq hl hp hn⟩
  · obtain ⟨u, hu, hl, hk, -, hcount, -⟩ := execAll_line_fails hc hv hn (.inl hbad)
    obtain rfl := execAll_unique ht hu
    exact ⟨hl, by simpa [hbad] using hk, hcount, no_output_of_doneErr hl⟩
  · have hc : cps[s.params.maxc]? = some cps[s.params.maxc] := List.getElem?_eq_getElem hlong
    rw [List.take_add_one, hc, List.forall_mem_append] at hv
    obtain ⟨hbefore, hlast⟩ := hv
    have hat : valid cps[s.params.maxc] = true := hlast _ (by simp)
    obtain ⟨u, hu, hl, hk, -, hcount, -⟩ := execAll_line_fails hc hbefore le_rfl (.inr rfl)
    obtain rfl := execAll_unique ht hu
    exact ⟨hl, by simpa [hat] using hk, hcount, no_output_of_doneErr hl⟩

/-- Settles O36: CLR makes the two lines alike, and every command after it keeps them so. -/
theorem noReadShowsWhatCameBeforeClr : Obligations.NoReadShowsWhatCameBeforeClr := by
  intro cp is s s' hparams
  obtain ⟨t, t', ht, ht', h⟩ := execAll_related (R := SameLine) (is := is)
    (sameLine_openEmptyLine hparams) (fun _ _ _ _ h he => he.sameLine h)
  exact ⟨t, t', by rw [execAll_cons (.clr cp), ht], by rw [execAll_cons (.clr cp), ht'], h.sameReads⟩

/-- Settles O37: each output is the blocks of its line's characters, by `execAll_line_output`. -/
theorem concatenatedLinesConcatenateTheirOutput :
    Obligations.ConcatenatedLinesConcatenateTheirOutput := by
  intro xs ys s u v hp hu hv hvalid hlen
  obtain ⟨hvx, hvy⟩ := List.forall_mem_append.mp hvalid
  have hsum : xs.length + ys.length ≤ s.params.maxc := by
    rwa [List.length_append] at hlen
  obtain ⟨s', hs', hos⟩ := execAll_line_output hp hvalid hlen
  obtain ⟨u', hu', hou⟩ := execAll_line_output (s := u) (hu ▸ hp) hvx (by rw [hu]; omega)
  obtain ⟨v', hv', hov⟩ := execAll_line_output (s := v) (hv ▸ hp) hvy (by rw [hv]; omega)
  exact ⟨s', u', v', hs', hu', hv', by rw [hos, hou, hov, List.flatMap_append]⟩

/-- Settles O14: CLR answers `openEmptyLine s`, in which LSTATE is OPEN, so that the gate hides BUF. -/
theorem clrOpensAnEmptyLine : Obligations.ClrOpensAnEmptyLine := by
  refine ⟨rfl, fun cp s => ?_⟩
  have he : Effect s (.clr cp) (openEmptyLine s) := .clr cp
  have hopen : (openEmptyLine s).lstate ≠ .doneOk := by simp
  exact ⟨_, he.exec_eq, rfl, rfl, rfl, rfl, sameCells_of_eq rfl rfl, he.sameElsewhere,
    openEmptyLine_status s, rfl, olen_hidden hopen, memRead_hidden hopen⟩

/-- Settles O17: RSV records a violation and nothing else, and the reads after a later END do not see
PCAUSE. -/
theorem rsvOnlyRecordsTheViolation : Obligations.RsvOnlyRecordsTheViolation := by
  refine ⟨encode_rsv_toNat, fun cp s => ?_⟩
  have hl := raiseProtocolViolation_lstate s .reservedOp
  have hk := raiseProtocolViolation_errk s .reservedOp
  have hpc := raiseProtocolViolation_pcause s .reservedOp
  have hst := storesNothing_raiseProtocolViolation .reservedOp s
  refine ⟨_, (Effect.rsv cp).exec_eq, hpc, hl, hk, hst, fun hidle hnone hfirst => ?_, fun ho => ?_⟩
  · rw [hfirst, if_pos rfl] at hpc
    rw [regRead, statusWord, statusFields, hpc, hk, hnone, hl, hidle]
    rfl
  · obtain ⟨hn, ⟨-, hcell⟩, -⟩ := hst
    exact ⟨_, _, (Effect.endCommits _ (hl.trans ho)).exec_eq, (Effect.endCommits _ ho).exec_eq, rfl,
      fun a => memRead_congr rfl hn fun _ => hcell a.toNat⟩

/-- Settles O18, command by command: the LSTATE of PUSH and END is `Effect.push_lstate` and
`Effect.endLine_lstate`. -/
theorem everyCommandCompletesByTheTable : Obligations.EveryCommandCompletesByTheTable := by
  intro i s
  obtain ⟨t, ht, he⟩ := exec_total i s
  refine ⟨t, ht, he.sameElsewhere, ?_⟩
  cases i with
  | clr cp => exact ⟨fun _ => he.unique (.clr cp) ▸ rfl, nofun, nofun, nofun⟩
  | rsv cp =>
    obtain rfl := he.unique (.rsv cp)
    exact ⟨nofun, fun _ => raiseProtocolViolation_lstate s _, nofun, nofun⟩
  | push cp => exact ⟨nofun, nofun, fun _ => he.push_lstate, nofun⟩
  | endLine cp => exact ⟨nofun, nofun, nofun, fun _ => he.endLine_lstate⟩

end Sys2Proof.Machine
end

section
/-! SUPPORT. Events and their ends (60_exceptions.md R47 to R54): which commands write ERRK and PCAUSE, which
one leaves a failed line, what an edge that accepts nothing does, and what the host reports of a line. -/

namespace Sys2Proof.Machine

/-! ## Which command has which event -/

/-- A command other than CLR that writes ERRK is a PUSH into an open line, and a line error of the kind
that R48 gives is all it does. -/
theorem Effect.lineError_of_errk_ne {i : Instr} {s t : State} (h : Effect s i t)
    (hi : i.opcode ≠ .clr) (hne : t.errk ≠ s.errk) :
    i.opcode = .push ∧ s.lstate = .openLine ∧
      t = raiseLineError (if valid i.cp then .capacity else .invalidChar) s := by
  cases h with
  | clr cp => exact absurd rfl hi
  | pushInvalid cp ho hv => exact ⟨rfl, ho, by simp [Instr.cp, hv]⟩
  | pushFull cp ho hv hn => exact ⟨rfl, ho, by simp [Instr.cp, hv]⟩
  | _ => simp at hne

theorem raiseProtocolViolation_pcause_of_none {s : State} (h : s.pcause = .none) (c : PCause) :
    (raiseProtocolViolation c s).pcause = c := by
  rw [raiseProtocolViolation_pcause, if_pos h]

theorem raiseProtocolViolation_pcause_of_ne_none {s : State} (h : s.pcause ≠ .none) (c : PCause) :
    (raiseProtocolViolation c s).pcause = s.pcause := by
  rw [raiseProtocolViolation_pcause, if_neg h]

/-- A violation that writes PCAUSE is the first one, and writes its own cause. -/
theorem first_violation_of_pcause_ne {c : PCause} {s : State}
    (hne : (raiseProtocolViolation c s).pcause ≠ s.pcause) :
    s.pcause = .none ∧ (raiseProtocolViolation c s).pcause = c := by
  have hnone : s.pcause = .none := by
    by_contra h
    exact hne (raiseProtocolViolation_pcause_of_ne_none h c)
  exact ⟨hnone, raiseProtocolViolation_pcause_of_none hnone c⟩

/-- A command other than CLR that writes PCAUSE is a first violation: RSV, or PUSH or END with no line
open. -/
theorem Effect.violation_of_pcause_ne {i : Instr} {s t : State} (h : Effect s i t)
    (hi : i.opcode ≠ .clr) (hne : t.pcause ≠ s.pcause) :
    s.pcause = .none ∧
      (i.opcode = .rsv ∧ t.pcause = .reservedOp ∨
        s.lstate.lineOpen = false ∧ i.opcode = .push ∧ t.pcause = .pushClosed ∨
        s.lstate.lineOpen = false ∧ i.opcode = .endLine ∧ t.pcause = .endClosed) := by
  cases h with
  | clr cp => exact absurd rfl hi
  | pushClosed cp ho =>
    obtain ⟨hnone, hc⟩ := first_violation_of_pcause_ne hne
    exact ⟨hnone, .inr (.inl ⟨ho, rfl, hc⟩)⟩
  | endClosed cp ho =>
    obtain ⟨hnone, hc⟩ := first_violation_of_pcause_ne hne
    exact ⟨hnone, .inr (.inr ⟨ho, rfl, hc⟩)⟩
  | rsv cp =>
    obtain ⟨hnone, hc⟩ := first_violation_of_pcause_ne hne
    exact ⟨hnone, .inl ⟨rfl, hc⟩⟩
  | _ => exact absurd rfl hne

/-- In sequence too, PCAUSE steers nothing (10_state.md R14). -/
theorem execAll_samePcauseAside {s s' : State} (h : samePcauseAside s s') (is : List Instr) :
    ∃ t t', execAll is s = .next t ∧ execAll is s' = .next t' ∧ samePcauseAside t t' :=
  execAll_related h fun _ _ _ _ hR he => he.samePcauseAside hR

/-! ## The way out of a failed line -/

/-- The only command that leaves STOP and DONE_ERR for another line state is CLR. -/
theorem Effect.clr_of_leaves_failed {i : Instr} {s t : State} (h : Effect s i t)
    (hs : s.lstate.failed = true) (ht : t.lstate.failed = false) : ∃ cp, i = .clr cp := by
  cases h with
  | clr cp => exact ⟨cp, rfl⟩
  | pushInvalid cp ho hv => exact nomatch ht
  | pushFull cp ho hv hn => exact nomatch ht
  | endCommits cp ho => simp [ho, LState.failed] at hs
  | endDiscards cp ho => exact nomatch ht
  | _ => exact absurd hs (by simpa using ht)

/-! ## Edges that accept nothing -/

theorem step_of_no_inputs {s : State} (h : s.inputs = []) : step s = .next s := by
  simp [step, h]

theorem acceptedAt_of_not_valid {c : PortCycle} (h : c.cmdValid = false) : acceptedAt c = none := by
  simp [acceptedAt, h]

theorem acceptedAt_of_not_ready {c : PortCycle} (h : c.cmdReady = false) : acceptedAt c = none := by
  simp [acceptedAt, h]

/-- After an edge at which a command is presented and not accepted, it waits if it was held so far. -/
theorem presentedAfter_of_not_ready (held : Presented) {c : PortCycle} (hr : c.rst = false)
    (hv : c.cmdValid = true) (hy : c.cmdReady = false) :
    presentedAfter held c =
      if held = .nothing ∨ held = .waiting c.cmdWord then .waiting c.cmdWord else .unstable := by
  simp [presentedAfter, hr, hv, hy, steady_iff]

/-! ## The host's report -/

theorem LState.code_eq_doneOk_iff {l : LState} : l.code = LState.doneOk.code ↔ l = .doneOk := by
  cases l <;> decide

theorem ErrKind.code_eq_invalidChar_iff {k : ErrKind} :
    k.code = ErrKind.invalidChar.code ↔ k = .invalidChar := by
  cases k <;> decide

/-- The host's report by the fields themselves, of which STATUS shows the codes (60_exceptions.md R53). -/
theorem hostReport_eq (arg : List Char) (s : State) :
    hostReport arg s =
      if s.lstate = .doneOk then ⟨readOutput s, [], 0⟩
      else if s.errk = .invalidChar then ⟨[], invalidCharMessage, 1⟩
      else Config.hostCapacityPolicy arg := by
  simp only [hostReport, status_lstate_field, status_errk_field, LState.code_eq_doneOk_iff,
    ErrKind.code_eq_invalidChar_iff]

theorem hostReport_of_doneErr (arg : List Char) {s : State} (hl : s.lstate = .doneErr) :
    hostReport arg s =
      if s.errk = .invalidChar then ⟨[], invalidCharMessage, 1⟩ else Config.hostCapacityPolicy arg := by
  rw [hostReport_eq, if_neg (by simp [hl])]

/-- With an argument the entry point reports the state in which its line ends. -/
theorem hostRun_some {cs : List Char} {s t : State}
    (h : execAll (lineCommands (cs.map codePointOfChar)) s = .next t) :
    hostRun (some cs) s = .next (t, hostReport cs t) := by
  simp [hostRun, h]

/-- The characters that the block encodes are the ASCII characters (40_expander.md R35). -/
theorem valid_codePointOfChar (c : Char) : valid (codePointOfChar c) = decide (c.toNat ≤ 127) := by
  rw [Bool.eq_iff_iff, decide_eq_true_iff, valid_iff_toNat, codePointOfChar_toNat]

theorem valid_of_ascii {cs : List Char} (h : ∀ c ∈ cs, c.toNat ≤ 127) :
    ∀ cp ∈ cs.map codePointOfChar, valid cp = true := by
  simpa [valid_codePointOfChar] using h

theorem valid_take_of_ascii {cs : List Char} {k : Nat} (h : ∀ c ∈ cs.take k, c.toNat ≤ 127) :
    ∀ cp ∈ (cs.map codePointOfChar).take k, valid cp = true :=
  List.map_take ▸ valid_of_ascii h

end Sys2Proof.Machine
end

section
/-! The statements of 60_exceptions.md. -/

namespace Sys2Proof.Machine

/-- Settles O20: a line error leaves STOP, in which every PUSH is ignored and END discards. -/
theorem lineErrorStopsTheLine : Obligations.LineErrorStopsTheLine := by
  intro kind s ho
  have hstop := raiseLineError_lstate s kind
  refine ⟨rfl, hstop, rfl, storesNothing_raiseLineError kind s,
    fun cp hv => (Effect.pushInvalid cp ho hv).exec_eq,
    fun cp hv hn => (Effect.pushFull cp ho hv hn).exec_eq,
    execAll_pushes_stopped hstop,
    fun cps cp => ⟨(raiseLineError kind s).withLState .doneErr, ?_, rfl, rfl, no_output_of_doneErr rfl⟩⟩
  rw [execAll_append (execAll_pushes_stopped hstop cps), execAll_cons (.endDiscards cp hstop),
    execAll_nil]

/-- Settles O21: each violating command is a case of `Effect`, and PCAUSE steers nothing by
`execAll_samePcauseAside`. -/
theorem firstViolationSticksAndSteersNothing : Obligations.FirstViolationSticksAndSteersNothing := by
  intro cause s
  have haside : samePcauseAside (raiseProtocolViolation cause s) s :=
    raiseProtocolViolation_withPcause s cause .none
  exact ⟨fun h => raiseProtocolViolation_pcause_of_none h cause,
    fun h => raiseProtocolViolation_pcause_of_ne_none h cause, haside,
    fun ho cp => ⟨(Effect.pushClosed cp ho).exec_eq, (Effect.endClosed cp ho).exec_eq⟩,
    fun cp => (Effect.rsv cp).exec_eq, execAll_samePcauseAside haside⟩

/-- Settles O22: a command that writes ERRK raises a line error, which keeps PCAUSE. -/
theorem oneEventPerCommand : Obligations.OneEventPerCommand := by
  intro i s t h hi
  have he := exec_eq_next_iff.mp h
  refine ⟨or_iff_not_imp_left.mpr fun hne => ?_, fun hne => ?_, he.violation_of_pcause_ne hi⟩
  · obtain ⟨-, -, rfl⟩ := he.lineError_of_errk_ne hi hne
    exact raiseLineError_pcause s _
  · obtain ⟨hpush, ho, rfl⟩ := he.lineError_of_errk_ne hi hne
    exact ⟨hpush, ho, raiseLineError_errk s _⟩

/-- Settles O23, edge by edge: an edge that neither resets nor accepts keeps LSTATE, and of the commands
only CLR leaves a failed line. -/
theorem onlyClrOrResetLeavesAFailedLine : Obligations.OnlyClrOrResetLeavesAFailedLine := by
  intro s t hstep hs ht
  cases edge_of_step hstep with
  | quiet hi => exact absurd hs (by simpa using ht)
  | reset c rest hi hr => exact ⟨c, rest, hi, .inl hr⟩
  | keeps c rest hi hr ha => exact absurd hs (by simpa using ht)
  | accept c rest hi hr hsteady ha _ he =>
    obtain ⟨cp, hcp⟩ := he.clr_of_leaves_failed hs ht
    exact ⟨c, rest, hi, .inr ⟨cp, hcp ▸ ha⟩⟩

/-- Settles O39: the block's part is the line result, `lineResultIsAllOrNothing`, for the code points of
the argument, and the host's is `hostReport_eq`. -/
theorem entryPointKeepsItsContract : Obligations.EntryPointKeepsItsContract := by
  intro s hp
  refine ⟨rfl, fun cs => ?_⟩
  obtain ⟨t, ht, -, hfits, hinvalid, hcapacity⟩ :=
    lineResultIsAllOrNothing (cs.map codePointOfChar) s hp
  refine ⟨t, hostReport cs t, hostRun_some ht, fun hv hn => ?_, fun k c hc hbad hv hn => ?_,
    fun hlong hv => ?_⟩
  · obtain ⟨hl, -, -, -, -, -, hout⟩ :=
      hfits (valid_of_ascii hv) (by rwa [List.length_map])
    rw [hostReport_eq, if_pos hl, hout, List.flatMap_map]
    exact ⟨hl, rfl⟩
  · have hcp : (cs.map codePointOfChar)[k]? = some (codePointOfChar c) := by
      rw [List.getElem?_map, hc, Option.map_some]
    have hcbad : valid (codePointOfChar c) = false := by
      rw [valid_codePointOfChar, decide_eq_false (Nat.not_le.mpr hbad)]
    obtain ⟨hl, hk, -⟩ := hinvalid k _ hcp hcbad (valid_take_of_ascii hv) hn
    rw [hostReport_of_doneErr cs hl, if_pos hk]
    exact ⟨hl, hk, rfl⟩
  · obtain ⟨hl, hk, -⟩ := hcapacity (by rwa [List.length_map]) (valid_take_of_ascii hv)
    rw [hostReport_of_doneErr cs hl, if_neg (by simp [hk])]
    exact ⟨hl, hk, rfl⟩

/-- Settles O8: an edge that accepts nothing touches the ports alone, and what waits then is
`presentedAfter`. -/
theorem edgesThatAcceptNothingKeepTheState : Obligations.EdgesThatAcceptNothingKeepTheState := by
  intro s
  refine ⟨step_of_no_inputs, fun c rest hi hr => ⟨fun hv => ?_, fun hv hy => ?_⟩⟩
  · rw [step_of_not_accepted hi hr (acceptedAt_of_not_valid hv), presentedAfter_of_not_valid _ hv]
  · rw [step_of_not_accepted hi hr (acceptedAt_of_not_ready hy),
      presentedAfter_of_not_ready s.held hr hv hy]
    rfl

end Sys2Proof.Machine
end

section
/-! SUPPORT. A host that keeps its duties (70_reset_and_hazards.md R57): what an ordered command does to
PCAUSE, which streams keep the handshake, which edges are refused, and how a whole line ends. -/

namespace Sys2Proof.Machine

/-! ## Duty 1, order -/

theorem ordered_push_iff {isOpen : Bool} {cp : CodePoint} {is : List Instr} :
    ordered isOpen (.push cp :: is) = true ↔ isOpen = true ∧ ordered true is = true :=
  Bool.and_eq_true_iff

theorem ordered_endLine_iff {isOpen : Bool} {cp : CodePoint} {is : List Instr} :
    ordered isOpen (.endLine cp :: is) = true ↔ isOpen = true ∧ ordered false is = true :=
  Bool.and_eq_true_iff

/-- A command in order raises no violation, and the commands after it are in order for the line state that
it leaves. -/
theorem Effect.pcause_none_of_ordered {i : Instr} {is : List Instr} {s t : State} (he : Effect s i t)
    (hp : s.pcause = .none) (ho : ordered s.lstate.lineOpen (i :: is) = true) :
    t.pcause = .none ∧ ordered t.lstate.lineOpen is = true := by
  cases he with
  | clr cp => exact ⟨rfl, ho⟩
  | pushInvalid cp hl hv => exact ⟨hp, (ordered_push_iff.mp ho).2⟩
  | pushFull cp hl hv hn => exact ⟨hp, (ordered_push_iff.mp ho).2⟩
  | pushAccepted cp hl hv hn =>
    obtain ⟨hopen, hrest⟩ := ordered_push_iff.mp ho
    exact ⟨hp, hopen ▸ hrest⟩
  | pushStopped cp hl =>
    obtain ⟨hopen, hrest⟩ := ordered_push_iff.mp ho
    exact ⟨hp, hopen ▸ hrest⟩
  | endCommits cp hl => exact ⟨hp, (ordered_endLine_iff.mp ho).2⟩
  | endDiscards cp hl => exact ⟨hp, (ordered_endLine_iff.mp ho).2⟩
  | pushClosed cp hl => simp [ordered_push_iff, hl] at ho
  | endClosed cp hl => simp [ordered_endLine_iff, hl] at ho
  | rsv cp => exact nomatch ho

/-! ## Duty 4, handshake -/

/-- Nothing waits after a reset edge. -/
theorem presentedAfter_of_rst (held : Presented) {c : PortCycle} (h : c.rst = true) :
    presentedAfter held c = .nothing :=
  if_pos h

/-- A host that keeps the handshake holds every command that it gets accepted. -/
theorem acceptsSteadily_of_keepsHandshake {held : Presented} {cs : List PortCycle}
    (h : keepsHandshake held cs = true) : acceptsSteadily held cs = true := by
  induction cs generalizing held with
  | nil => rfl
  | cons c cs ih =>
    obtain ⟨hc, hcs⟩ := Bool.and_eq_true_iff.mp h
    refine acceptsSteadily_cons.mpr ⟨fun i ha => ?_, ih hcs⟩
    obtain ⟨hr, -⟩ := acceptedAt_eq_some_iff.mp ha
    rw [hr, Bool.false_or] at hc
    exact steady_of_holds hc

/-- A host that presents nothing gets nothing accepted. -/
theorem acceptsSteadily_of_not_valid {held : Presented} {cs : List PortCycle}
    (h : ∀ c ∈ cs, c.cmdValid = false) : acceptsSteadily held cs = true := by
  induction cs generalizing held with
  | nil => rfl
  | cons c cs ih =>
    obtain ⟨hc, hcs⟩ := List.forall_mem_cons.mp h
    refine acceptsSteadily_cons.mpr ⟨fun i ha => ?_, ih hcs⟩
    rw [acceptedAt_of_not_valid hc] at ha
    cases ha

/-! ## Refused edges -/

theorem steady_eq_false_iff {held : Presented} {c : PortCycle} :
    steady held c = false ↔ held ≠ .nothing ∧ held ≠ .waiting c.cmdWord := by
  rw [← Bool.not_eq_true, steady_iff, not_or]

/-- A step is refused at an edge that would accept a command which was not held stable, and there alone. -/
theorem step_eq_refused_iff {s : State} {r : Refusal} :
    step s = .refused r ↔
      r = .handshakeBroken ∧ ∃ (c : PortCycle) (rest : List PortCycle),
        s.inputs = c :: rest ∧ c.rst = false ∧ c.cmdValid = true ∧ c.cmdReady = true ∧
        steady s.held c = false := by
  constructor
  · intro h
    cases h ▸ step_edge s with
    | broken c rest hi hr hv hy hs => exact ⟨rfl, c, rest, hi, hr, hv, hy, hs⟩
  · rintro ⟨rfl, c, rest, hi, hr, hv, hy, hs⟩
    simp [step, hi, portAction, hr, hv, hy, hs]

/-- On a steady stream a step answers a next state, whose stream is steady again. -/
theorem step_of_acceptsSteadily {s : State} (h : acceptsSteadily s.held s.inputs = true) :
    ∃ t, step s = .next t ∧ acceptsSteadily t.held t.inputs = true := by
  have hedge := step_edge s
  generalize step s = o at hedge ⊢
  cases hedge with
  | quiet hi => exact ⟨s, rfl, h⟩
  | reset c rest hi hr =>
    rw [hi, acceptsSteadily_cons, presentedAfter_of_rst _ hr] at h
    exact ⟨_, rfl, h.2⟩
  | keeps c rest hi hr ha =>
    rw [hi, acceptsSteadily_cons] at h
    exact ⟨_, rfl, h.2⟩
  | accept c rest hi hr hs ha t he =>
    rw [hi, acceptsSteadily_cons, presentedAfter_of_accepted _ ha] at h
    obtain ⟨-, hinputs, hheld, -⟩ := he.sameElsewhere
    refine ⟨t, rfl, ?_⟩
    rw [hinputs, hheld]
    exact h.2
  | broken c rest hi hr hv hy hs =>
    rw [hi, acceptsSteadily_cons] at h
    have hsteady := h.1 _ (acceptedAt_eq_some_iff.mpr ⟨hr, hv, hy, rfl⟩)
    exact absurd hsteady (Bool.eq_false_iff.mp hs)

/-- A steady stream is never stopped. -/
theorem steps_of_acceptsSteadily (k : Nat) {s : State} (h : acceptsSteadily s.held s.inputs = true) :
    ∃ t, steps k s = .next t := by
  induction k generalizing s with
  | zero => exact ⟨s, rfl⟩
  | succ k ih =>
    obtain ⟨u, hu, hsteady⟩ := step_of_acceptsSteadily h
    rw [steps_succ k hu]
    exact ih hsteady

/-! ## A whole line -/

/-- A line is CLR, a PUSH a code point, and END (70_reset_and_hazards.md R59). -/
theorem lineCommands_length (cps : List CodePoint) : (lineCommands cps).length = cps.length + 2 := by
  simp [lineCommands]

/-- A whole line completes closed: in DONE_OK if it is valid and fits, else in DONE_ERR. -/
theorem execAll_line_closes (cps : List CodePoint) (s : State) :
    ∃ t, execAll (lineCommands cps) s = .next t ∧ (t.lstate = .doneOk ∨ t.lstate = .doneErr) ∧
      (t.lstate = .doneOk ↔ (∀ c ∈ cps, valid c = true) ∧ cps.length ≤ s.params.maxc) := by
  rcases line_fits_or_fails cps s.params.maxc with ⟨hv, hn⟩ | ⟨k, c, hc, hv, hn, hbad⟩
  · obtain ⟨t, ht, hl, -⟩ := execAll_line_fits hv hn
    exact ⟨t, ht, .inl hl, iff_of_true hl ⟨hv, hn⟩⟩
  · obtain ⟨t, ht, hl, -⟩ := execAll_line_fails hc hv hn hbad
    refine ⟨t, ht, .inr hl, iff_of_false (by simp [hl]) ?_⟩
    rintro ⟨hvalid, hlen⟩
    rcases hbad with hinvalid | hfull
    · exact absurd (hvalid c (List.mem_of_getElem? hc)) (by simp [hinvalid])
    · have hlong := (List.getElem?_eq_some_iff.mp hc).1
      omega

end Sys2Proof.Machine
end

section
/-! The statements of 70_reset_and_hazards.md. -/

namespace Sys2Proof.Machine

/-- Settles O11: `step_eq_refused_iff`, the run of a steady stream by induction on the edges, and the two
kinds of host whose streams are steady. -/
theorem onlyABrokenHandshakeStopsTheBlock : Obligations.OnlyABrokenHandshakeStopsTheBlock := by
  refine ⟨fun s r => ?_, fun k s h => steps_of_acceptsSteadily k h,
    fun held cs => ⟨acceptsSteadily_of_keepsHandshake, acceptsSteadily_of_not_valid⟩⟩
  simp only [step_eq_refused_iff, steady_eq_false_iff, PortCycle.cmdWord]

/-- Settles O25, by induction on the commands: each keeps PCAUSE NONE and leaves a line state for which the
rest is in order. -/
theorem orderedHostCausesNoViolation : Obligations.OrderedHostCausesNoViolation := by
  intro is
  induction is with
  | nil => exact fun s hp _ => ⟨s, rfl, hp⟩
  | cons i is ih =>
    intro s hp ho
    obtain ⟨u, hu⟩ := exists_effect i s
    obtain ⟨hpu, hou⟩ := hu.pcause_none_of_ordered hp ho
    rw [execAll_cons hu]
    exact ih u hpu hou

/-- Settles O38: the stream amounts to the commands of the line, by `portTimingDoesNotMatter`, and these
close it, by `execAll_line_closes`. -/
theorem lineClosesOnceItsCommandsAreAccepted : Obligations.LineClosesOnceItsCommandsAreAccepted := by
  intro cps cs rest s hi hr hs hline
  obtain ⟨t, ht, hsteps⟩ := portTimingDoesNotMatter cs rest s hi hr hs
  obtain ⟨u, hu, hclosed, hok⟩ := execAll_line_closes cps s
  rw [hline] at ht ⊢
  obtain rfl := execAll_unique ht hu
  exact ⟨lineCommands_length cps, _, hsteps, rfl, hclosed, hok⟩

end Sys2Proof.Machine
end
